-- ==== Sys2Proof/Word.lean ====
section
/-! DEFINITION. The widths of the block's values (00_scope rule R3): 16-bit words and 8-bit bytes, all unsigned. -/

namespace Sys2Proof

/-- A 16-bit unsigned value: the CRC register, a table entry, a command word, a response. -/
abbrev Word := BitVec 16

/-- An 8-bit unsigned value: an input byte, a table index, the operand of a command. -/
abbrev Byte := BitVec 8

end Sys2Proof
end

