-- ==== Sys2Proof/Syntax.lean ====
section
/-! DEFINITION. The seven commands (30_encoding rule R53), the reserved words by kind (rule R57) and what a
word decodes to (rule R54). -/

namespace Sys2Proof

/-- A command of the block, one constructor per row of the opcode table.
The operand types hold exactly the operand values of rules R51 and R52, so every term is a legal command. -/
inductive Instr where
  /-- `BUILD` (rule R72). -/
  | build
  /-- `INIT` (rule R83). -/
  | init
  /-- `UPD b` (rule R84): `b` is an input byte. -/
  | upd (b : Byte)
  /-- `RDCRC` (rule R85). -/
  | rdcrc
  /-- `RDTAB i` (rule R100): `i` is a table index. -/
  | rdtab (i : Byte)
  /-- `RDTLO i` (rule R101). -/
  | rdtlo (i : Byte)
  /-- `RDTHI i` (rule R102). -/
  | rdthi (i : Byte)
  deriving DecidableEq, Repr

/-- The three kinds of reserved word that rule R57 lists. -/
inductive ReservedKind where
  /-- `opc = 0x00`. -/
  | opcZero
  /-- `opc` from `0x08` to `0xFF`. -/
  | opcUnused
  /-- `opc` of an operand-less command (`0x01`, `0x02`, `0x04`) with `arg` not `0x00`. -/
  | argNotZero
  deriving DecidableEq, Repr

/-- The codomain of decoding (rule R54): one of the seven commands, or reserved, by name. -/
inductive Decoded where
  | command (i : Instr)
  | reserved (kind : ReservedKind)
  deriving DecidableEq, Repr

end Sys2Proof
end

