-- ==== Sys2Proof/WellFormed.lean ====
section
/-! DEFINITION. Which command words are well formed, read from the opcode table's `match` and `mask` columns
(30_encoding rule R53). A TERM of `Instr` has no ill-formed value: its operand types hold what rules R51 and R52 allow.
What can be ill formed is a word, and this file says which are not. -/

namespace Sys2Proof

/-- One row of the opcode table: a word `w` selects it when `w & mask = pattern` (rule R53). -/
structure OpcodeRow where
  mnemonic : String
  pattern : Word
  mask : Word
  deriving DecidableEq, Repr

/-- `(w & mask) = match`. -/
def OpcodeRow.selects (r : OpcodeRow) (w : Word) : Bool := (w &&& r.mask) == r.pattern

/-- The table of rule R53, in its order. -/
def opcodeRows : List OpcodeRow :=
  [⟨"BUILD", 0x0100, 0xFFFF⟩,
   ⟨"INIT", 0x0200, 0xFFFF⟩,
   ⟨"UPD", 0x0300, 0xFF00⟩,
   ⟨"RDCRC", 0x0400, 0xFFFF⟩,
   ⟨"RDTAB", 0x0500, 0xFF00⟩,
   ⟨"RDTLO", 0x0600, 0xFF00⟩,
   ⟨"RDTHI", 0x0700, 0xFF00⟩]

/-- A well-formed command word selects some row of the table; every other word is reserved (rules R53, R57). -/
def wellFormedWord (w : Word) : Bool := opcodeRows.any (·.selects w)

/-- The row of the opcode table that a command stands in. -/
def Instr.row : Instr → OpcodeRow
  | .build => ⟨"BUILD", 0x0100, 0xFFFF⟩
  | .init => ⟨"INIT", 0x0200, 0xFFFF⟩
  | .upd _ => ⟨"UPD", 0x0300, 0xFF00⟩
  | .rdcrc => ⟨"RDCRC", 0x0400, 0xFFFF⟩
  | .rdtab _ => ⟨"RDTAB", 0x0500, 0xFF00⟩
  | .rdtlo _ => ⟨"RDTLO", 0x0600, 0xFF00⟩
  | .rdthi _ => ⟨"RDTHI", 0x0700, 0xFF00⟩

end Sys2Proof
end

