-- ==== Sys2Proof/Decode.lean ====
section
/-! DEFINITION. The decoder (30_encoding rule R54), total on 16-bit words, and the encoder (rule R55). -/

namespace Sys2Proof

/-- `opc = cmd[15:8]` (rule R50). -/
def opcField (w : Word) : Byte := (w >>> 8).setWidth 8

/-- `arg = cmd[7:0]`, taken as it stands (rules R50, R52). -/
def argField (w : Word) : Byte := w.setWidth 8

/-- Which clause of rule R57 a reserved word falls under. -/
def reservedKind (w : Word) : ReservedKind :=
  if opcField w = 0x00 then .opcZero
  else if 0x08 ≤ (opcField w).toNat then .opcUnused
  else .argNotZero

/-- The decoder, in the words of rule R54. It reads no state. -/
def decode (w : Word) : Decoded :=
  if opcField w = 0x01 ∧ argField w = 0x00 then .command .build
  else if opcField w = 0x02 ∧ argField w = 0x00 then .command .init
  else if opcField w = 0x03 then .command (.upd (argField w))
  else if opcField w = 0x04 ∧ argField w = 0x00 then .command .rdcrc
  else if opcField w = 0x05 then .command (.rdtab (argField w))
  else if opcField w = 0x06 then .command (.rdtlo (argField w))
  else if opcField w = 0x07 then .command (.rdthi (argField w))
  else .reserved (reservedKind w)

/-- The encoder of rule R55; the `+` never carries out of the low byte. -/
def encode : Instr → Word
  | .build => 0x0100
  | .init => 0x0200
  | .upd b => 0x0300 + b.setWidth 16
  | .rdcrc => 0x0400
  | .rdtab i => 0x0500 + i.setWidth 16
  | .rdtlo i => 0x0600 + i.setWidth 16
  | .rdthi i => 0x0700 + i.setWidth 16

/-- The command word held in the low bits of `w`: `nbits` bits as the opcode table numbers them, every bit above
them 0. A command is ONE 16-bit word (rule R50) and has no byte order (20_memory rule R38; entry 7). -/
def tableWord (nbits w : Nat) : Word := BitVec.ofNat 16 (w % 2 ^ nbits)

/-- The command that `decode` reads from a word numbered as the opcode table numbers it; none for a reserved word. -/
def decodeTableWord (nbits w : Nat) : Option Instr :=
  match decode (tableWord nbits w) with
  | .command i => some i
  | .reserved _ => none

end Sys2Proof
end

