-- ==== Sys2Proof/Config.lean ====
section
/-! DEFINITION. The one parameter the spec leaves to the implementation (00_scope rule R4). -/

namespace Sys2Proof

/-- `BUILD_AT_RESET`, at the default the spec gives it (92_eei_decisions D5): the table is built at first need.
The reset state for BOTH values is `Machine.State.resetWith`, and no statement rests on this value (entry 1).
DESIGN CHOICE; unsafe where a claim leans on the value. -/
def Config.buildAtReset : Bool := false

end Sys2Proof
end

