-- ==== Sys2Proof/Machine/Operands.lean ====
section
/-! DEFINITION. The operand forms of the commands: the bytes of a word, their widening, and the index that the
update step computes (20_memory rule R35, 30_encoding rule R52, 41_checksum rule R80). -/

namespace Sys2Proof.Machine

/-- The low byte `v & 0xFF = v[7:0]` (rule R35). -/
def lowByte (v : Word) : Byte := v.setWidth 8

/-- The high byte `v >> 8 = v[15:8]` (rule R35). -/
def highByte (v : Word) : Byte := (v >>> 8).setWidth 8

/-- `zext_16`: zero bits at the top; no value of the block is signed (00_scope section 6 and rule R3). -/
def zext16 (b : Byte) : Word := b.setWidth 16

/-- `{hi, lo}`: concatenation, `hi` in the high bits (00_scope section 6). -/
def joinBytes (hi lo : Byte) : Word := hi ++ lo

/-- `index = CRC[7:0] XOR b` (rule R80): always 0 to 255 (20_memory rule R39). -/
def updIndex (crc : Word) (b : Byte) : Byte := lowByte crc ^^^ b

end Sys2Proof.Machine
end

