-- ==== Sys2Proof/Machine/TableFunctions.lean ====
section
/-! DEFINITION. The pure functions of the table builder (40_table_builder rules R70 and R71). -/

namespace Sys2Proof.Machine

/-- The polynomial constant (00_scope rule R1): the bit-reversed form of `0x1021`. Not state, not a parameter. -/
def poly : Word := 0x8408

/-- One step of the bit-serial division (rule R70); the test reads bit 0 before the shift. -/
def bitStep (k : Word) : Word := if k[0] then (k >>> 1) ^^^ poly else k >>> 1

/-- Eight division steps (rule R70). -/
def bit8 (k : Word) : Word :=
  bitStep (bitStep (bitStep (bitStep (bitStep (bitStep (bitStep (bitStep k)))))))

/-- `TableEntry(i)` (rule R71). -/
def tableEntry (i : Byte) : Word := bit8 (zext16 i)

/-- `BuildTable()` (rule R71): the 256 entries in index order. -/
def buildTable : List Word := (List.range 256).map fun i => tableEntry (BitVec.ofNat 8 i)

end Sys2Proof.Machine
end

