-- ==== Sys2Proof/Machine/Memory.lean ====
section
/-! DEFINITION. The table index space (20_memory rules R30 and R33): the block's one memory, addressed by entry, not by
byte. It is a list of (index, entry) pairs in one canonical form; an index that is not listed has NO VALUE, which is how
70_reset_and_hazards rule R131 asks for the table of a block that has not built it (entries 2 and 3). -/

namespace Sys2Proof.Machine

/-- The table's contents, as (index, entry) pairs. -/
abbrev Memory := List (Nat × Word)

/-- `MemRead(i, 2)`: the whole entry at an index, or no value. -/
def Memory.read : Memory → Nat → Option Word
  | [], _ => none
  | (a, v) :: m, i => if a = i then some v else Memory.read m i

/-- `MemWrite(i, 2, v)`: replaces the whole entry at an index; keeps the canonical form. -/
def Memory.write : Memory → Nat → Word → Memory
  | [], i, v => [(i, v)]
  | (a, x) :: m, i, v =>
    if i < a then (i, v) :: (a, x) :: m
    else if i = a then (i, v) :: m
    else (a, x) :: Memory.write m i v

/-- The canonical form above a bound: indices rising from `lo` on, all below 256. -/
def Memory.wfFrom : Nat → Memory → Bool
  | _, [] => true
  | lo, (a, _) :: m => decide (lo ≤ a) && decide (a < 256) && Memory.wfFrom (a + 1) m

/-- The canonical form: indices strictly rising and inside the index space 0 to 255 (rule R30).
Equal well-formed memories are equal lists. -/
def Memory.wf (m : Memory) : Bool := Memory.wfFrom 0 m

/-- The memory that holds `BuildTable()`, entry `i` at index `i`. -/
def builtMemory : Memory := (List.range' 0 256).map fun i => (i, tableEntry (BitVec.ofNat 8 i))

end Sys2Proof.Machine
end

