-- ==== Sys2Proof/Machine/State.lean ====
section
/-! DEFINITION. The machine's state (10_state.md), its reset value (70_reset_and_hazards rules R130 to R133), and the
reasons a step can stop. -/

namespace Sys2Proof.Machine

/-- The block's state (`crc`, `table`, `built`: 10_state section 1) and the bookkeeping the spec gives a model of it
(`pc`, `responses`: rules R13 and R22; `commands`: the host's finite command list, which `pc` indexes). -/
structure State where
  /-- `CRC`, the one data register (rule R10). -/
  crc : Word
  /-- `TABLE`, the lookup table (rule R17). -/
  table : Memory
  /-- `BUILT`, the hidden flag "table has been built" (rule R14). -/
  built : Bool
  /-- The index of the next command in the host's list (rule R13): not hardware state, never wraps. -/
  pc : Nat
  /-- The host's command list (rule R13; entry 4): no command writes it. -/
  commands : List Word
  /-- The values passed to `Respond` since the start of the run, oldest first (rule R22). -/
  responses : List Word
  deriving DecidableEq, Repr

/-- The reasons a step can fault. The spec gives the block no fault (60_exceptions rule R110); this one is the read of
"no value" that 70_reset_and_hazards rule R131 asks a model to fault on. -/
inductive Fault where
  /-- Raised by `withEntry` when `BUILT` is 1 and the table has no value at the index. Safe: no run reaches it (the
  invariant of rule R18 rules it out). -/
  | noTableEntry (index : Byte)
  deriving DecidableEq, Repr

/-- The reasons the model gives no meaning. -/
inductive Refusal where
  /-- For an arm of `exec` that has no meaning yet; no arm raises it. Safe. -/
  | notModelled (mnemonic : String)
  /-- Raised by `step` on a reserved word (30_encoding rules R57, R58). Safe: the model claims nothing of such a run. -/
  | reservedWord (kind : ReservedKind)
  /-- Raised by `step` when the host's command list is exhausted (00_scope rule R9; entry 5). Safe. -/
  | runEnded
  deriving DecidableEq, Repr

/-- The state after reset for either value of `BUILD_AT_RESET` (rules R130 to R133), with no command listed. -/
def State.resetWith (buildAtReset : Bool) : State where
  crc := 0x0000
  table := if buildAtReset then builtMemory else []
  built := buildAtReset
  pc := 0
  commands := []
  responses := []

/-- The state after reset, at the parameter's default (92_eei_decisions D5; entry 1). -/
def State.reset : State := State.resetWith Config.buildAtReset

end Sys2Proof.Machine
end

