-- ==== Sys2Proof/Machine/Flags.lean ====
section
/-! DEFINITION. The one flag. The block has no condition codes and no command sets a flag from arithmetic; `BUILT` is the
one 1-bit piece of state and nothing but reset makes it 0 (10_state rule R14). -/

namespace Sys2Proof.Machine

/-- `BUILT <- 1` (rules R72, R73). -/
def setBuilt (s : State) : State := { s with built := true }

end Sys2Proof.Machine
end

