-- ==== Sys2Proof/Machine/Ops.lean ====
section
/-! DEFINITION. The named operations over the state. The block has no exception, trap or return from one (60_exceptions
rules R110, R115, R116), so there is no operation that takes one. -/

namespace Sys2Proof.Machine

/-- `CRC <- v`. -/
def setCrc (v : Word) (s : State) : State := { s with crc := v }

/-- `Respond(v)`: appends to the response list (10_state rule R22). -/
def respond (v : Word) (s : State) : State := { s with responses := s.responses ++ [v] }

/-- `pc <- pc + 1`, the end of every command (10_state rule R13). -/
def advance (s : State) : State := { s with pc := s.pc + 1 }

/-- `MemRead(i, 2)`, written `TABLE[i]` (20_memory rule R33). -/
def readTable (i : Byte) (s : State) : Option Word := s.table.read i.toNat

/-- `MemWrite(i, 2, v)`, written `TABLE[i] <- v` (20_memory rule R33). -/
def writeTable (i : Byte) (v : Word) (s : State) : State := { s with table := s.table.write i.toNat v }

/-- The build as one atomic action (00_scope rule R6): the table is written whole (10_state rule R19) and `BUILT` set.
`buildLoop` is the same action entry by entry. -/
def fillTable (s : State) : State := setBuilt { s with table := builtMemory }

/-- The loop of rule R72 as it is written: `TABLE[i] <- TableEntry(i)` for `i` from 0 up, `BUILT <- 1` after it. -/
def buildLoop (s : State) : State :=
  setBuilt ((List.range 256).foldl (fun t i => writeTable (BitVec.ofNat 8 i) (tableEntry (BitVec.ofNat 8 i)) t) s)

/-- `EnsureBuilt()` (40_table_builder rule R73). -/
def ensureBuilt (s : State) : State := if s.built then s else fillTable s

/-- What every command that reads `TABLE` does first (rules R73, R84, R100 to R102): `EnsureBuilt()`, then one read of the
entry at index `i`, then `k` with the entry and the state after the build. -/
def withEntry (i : Byte) (s : State) (k : Word → State → Host.Outcome State Fault Refusal) :
    Host.Outcome State Fault Refusal :=
  match readTable i (ensureBuilt s) with
  | some v => k v (ensureBuilt s)
  | none => .fault (.noTableEntry i)

/-- The host's next command word: the one `pc` indexes, if the list is not exhausted (10_state rule R13). -/
def fetchCommand (s : State) : Option Word := s.commands[s.pc]?

/-- The state with `w` as the host's next command. A list shorter than `pc` is filled up with words that no step fetches
again (`pc` only rises). -/
def placeCommand (w : Word) (s : State) : State :=
  { s with commands :=
      s.commands.take s.pc ++ List.replicate (s.pc - s.commands.length) 0 ++ [w] ++ s.commands.drop (s.pc + 1) }

end Sys2Proof.Machine
end

