-- ==== Sys2Proof/Machine/Checksum.lean ====
section
/-! DEFINITION. The checksum unit: the pure functions `CrcStep` and `Checksum` (41_checksum rules R80, R81) and the commands
`INIT`, `UPD` and `RDCRC` (rules R83 to R85). -/

namespace Sys2Proof.Machine

/-- `(CRC >> 8) XOR entry`: the register after an update whose table entry is `entry` (rules R80, R84). -/
def foldEntry (crc entry : Word) : Word := (crc >>> 8) ^^^ entry

/-- `CrcStep(c, b)` (rule R80). -/
def crcStep (c : Word) (b : Byte) : Word := foldEntry c (tableEntry (updIndex c b))

/-- `Fold(c, S)` (rule R81), strictly left to right. -/
def crcFold (c : Word) : List Byte → Word
  | [] => c
  | b :: rest => crcFold (crcStep c b) rest

/-- `Checksum(S)` (rule R81): the fold from `0x0000`; no final XOR. -/
def checksum (bytes : List Byte) : Word := crcFold 0x0000 bytes

/-- `INIT` (rule R83): `EnsureBuilt()` is not run. -/
def execInit (s : State) : Host.Outcome State Fault Refusal := .next (advance (setCrc 0x0000 s))

/-- `UPD b` (rule R84): both uses of `CRC` read the value before the command. -/
def execUpd (b : Byte) (s : State) : Host.Outcome State Fault Refusal :=
  withEntry (updIndex s.crc b) s fun entry t => .next (advance (setCrc (foldEntry s.crc entry) t))

/-- `RDCRC` (rule R85): the register as it is; nothing is written. -/
def execRdcrc (s : State) : Host.Outcome State Fault Refusal := .next (advance (respond s.crc s))

end Sys2Proof.Machine
end

