-- ==== Sys2Proof/Machine/ReadOut.lean ====
section
/-! DEFINITION. The table read-out commands (42_table_readout rules R100 to R102). -/

namespace Sys2Proof.Machine

/-- `RDTAB i` (rule R100): the whole entry. -/
def execRdtab (i : Byte) (s : State) : Host.Outcome State Fault Refusal :=
  withEntry i s fun entry t => .next (advance (respond entry t))

/-- `RDTLO i` (rule R101): the entry's low byte, zero-extended. -/
def execRdtlo (i : Byte) (s : State) : Host.Outcome State Fault Refusal :=
  withEntry i s fun entry t => .next (advance (respond (zext16 (lowByte entry)) t))

/-- `RDTHI i` (rule R102): the entry's high byte, zero-extended. -/
def execRdthi (i : Byte) (s : State) : Host.Outcome State Fault Refusal :=
  withEntry i s fun entry t => .next (advance (respond (zext16 (highByte entry)) t))

end Sys2Proof.Machine
end

