-- ==== Sys2Proof/Machine/TableBuilder.lean ====
section
/-! DEFINITION. The table builder's command (40_table_builder rule R72). -/

namespace Sys2Proof.Machine

/-- `BUILD` (rule R72): one atomic build of the whole table; `CRC` is not touched; no response. -/
def execBuild (s : State) : Host.Outcome State Fault Refusal := .next (advance (fillTable s))

end Sys2Proof.Machine
end

