-- ==== Sys2Proof/Machine/Dispatch.lean ====
section
/-! DEFINITION. What each command does: one arm per command, each a call of its meaning. -/

namespace Sys2Proof.Machine

/-- The meaning of a command (rules R72, R83 to R85, R100 to R102). -/
def exec (i : Instr) (s : State) : Host.Outcome State Fault Refusal :=
  match i with
  | .build => Sys2Proof.Machine.execBuild s
  | .init => Sys2Proof.Machine.execInit s
  | .upd b => Sys2Proof.Machine.execUpd b s
  | .rdcrc => Sys2Proof.Machine.execRdcrc s
  | .rdtab j => Sys2Proof.Machine.execRdtab j s
  | .rdtlo j => Sys2Proof.Machine.execRdtlo j s
  | .rdthi j => Sys2Proof.Machine.execRdthi j s

end Sys2Proof.Machine
end

