-- ==== Sys2Proof/Machine/Step.lean ====
section
/-! DEFINITION. One step: the host's next command word is decoded and run (70_reset_and_hazards rule R139). -/

namespace Sys2Proof.Machine

/-- One command, or a refusal: the word is reserved (30_encoding rule R58), or the run has ended (00_scope rule R9). -/
def step (s : State) : Host.Outcome State Fault Refusal :=
  match fetchCommand s with
  | none => .refused .runEnded
  | some w =>
    match decode w with
    | .command i => exec i s
    | .reserved kind => .refused (.reservedWord kind)

/-- The state whose next step runs the command word that the opcode table's bits `w` give (entry 4). -/
def State.withFetchWord (s : State) (nbits w : Nat) : State := placeCommand (tableWord nbits w) s

end Sys2Proof.Machine
end

