-- ==== Sys2Proof/Machine/Run.lean ====
section
/-! DEFINITION. Runs (00_scope rule R9, 70_reset_and_hazards rule R132) and the host's pseudo-commands (30_encoding rule
R62). The block sees only the commands; a run is what the host does with it. -/

namespace Sys2Proof.Machine

/-- The start of a run: reset, with the host's whole command list (rules R13, R132; entry 4). -/
def State.start (buildAtReset : Bool) (words : List Word) : State :=
  { State.resetWith buildAtReset with commands := words }

/-- The end of a run: the list is exhausted and the last command has completed (rule R9). -/
def State.runOver (s : State) : Bool := s.pc == s.commands.length

/-- What rule R9 calls the observation of a run: the responses in order and the final `CRC`, `TABLE`, `BUILT`. -/
def State.observation (s : State) : List Word × Word × Memory × Bool := (s.responses, s.crc, s.table, s.built)

/-- A command list run from a state, each command to completion before the next (20_memory rule R44). -/
def execList : List Instr → State → Host.Outcome State Fault Refusal
  | [], s => .next s
  | i :: rest, s =>
    match exec i s with
    | .next t => execList rest t
    | .fault r => .fault r
    | .refused r => .refused r

/-- A whole run from reset: as many steps as the host's list has words. -/
def runFromReset (buildAtReset : Bool) (words : List Word) : Host.Outcome State Fault Refusal :=
  Sys2Proof.core.run words.length (State.start buildAtReset words)

/-- `CKSUM b0, ..., b(n-1)` (rule R62). -/
def cksum (bytes : List Byte) : List Instr := .init :: (bytes.map Instr.upd ++ [.rdcrc])

/-- `GETTABLE` (rule R62). -/
def getTable : List Instr := .build :: (List.range 256).map fun i => .rdtab (BitVec.ofNat 8 i)

/-- `DUMPLO` (rule R62). -/
def dumpLo : List Instr := (List.range 256).map fun i => .rdtlo (BitVec.ofNat 8 i)

/-- `DUMPHI` (rule R62). -/
def dumpHi : List Instr := (List.range 256).map fun i => .rdthi (BitVec.ofNat 8 i)

/-- The bytes that a command list gives the checksum: the operands of its `UPD`s, in order (10_state rule R20). -/
def updBytes : List Instr → List Byte
  | [] => []
  | .upd b :: rest => b :: updBytes rest
  | .build :: rest => updBytes rest
  | .init :: rest => updBytes rest
  | .rdcrc :: rest => updBytes rest
  | .rdtab _ :: rest => updBytes rest
  | .rdtlo _ :: rest => updBytes rest
  | .rdthi _ :: rest => updBytes rest

end Sys2Proof.Machine
end

