-- ==== Sys2Proof/Machine/Assembler.lean ====
section
/-! DEFINITION. The text form of command streams (30_encoding rules R60 to R62): one command or pseudo-command per line.
It is the host's notation; the block never sees text (entries 10 and 14). Text is a list of characters. -/

namespace Sys2Proof.Machine

/-- A line of text. -/
abbrev Text := List Char

/-- The code of a printable ASCII character (rule R61; entry 14). -/
def charByte (c : Char) : Option Byte :=
  if 0x20 ≤ c.toNat ∧ c.toNat ≤ 0x7E then some (BitVec.ofNat 8 c.toNat) else none

/-- A string literal stands for its characters' codes in order, with no terminating zero (rule R61). -/
def textBytes (t : Text) : Option (List Byte) := t.mapM charByte

def isBlank (c : Char) : Bool := c == ' ' || c == '\t'

def skipBlanks (t : Text) : Text := t.dropWhile isBlank

/-- Nothing but blanks and a `;` comment may stand after a command (rule R60). -/
def lineEnds (t : Text) : Bool :=
  match skipBlanks t with
  | [] => true
  | c :: _ => c == ';'

/-- The value of a digit in a base up to 16. -/
def digit (base : Nat) (c : Char) : Option Nat :=
  let n := c.toNat
  let v := if 0x30 ≤ n ∧ n ≤ 0x39 then n - 0x30
    else if 0x41 ≤ n ∧ n ≤ 0x46 then n - 0x37
    else if 0x61 ≤ n ∧ n ≤ 0x66 then n - 0x57
    else base
  if v < base then some v else none

/-- A number in a base and the text after it; `acc` holds the value so far and is `none` before the first digit. -/
def number (base : Nat) : Option Nat → Text → Option (Nat × Text)
  | acc, [] => acc.map (·, [])
  | acc, c :: t =>
    match digit base c with
    | some d => number base (some (acc.getD 0 * base + d)) t
    | none => acc.map (·, c :: t)

/-- An index operand: a hexadecimal or decimal number from 0 to 255 (rule R60). -/
def indexOperand (t : Text) : Option (Byte × Text) :=
  let parsed := match t with
    | '0' :: 'x' :: u => number 16 none u
    | _ => number 10 none t
  match parsed with
  | some (n, u) => if n < 256 then some (BitVec.ofNat 8 n, u) else none
  | none => none

/-- A byte operand: a number as above, or one printable character in single quotes (rule R60).
DESIGN CHOICE (entry 10): there is no escape; the single quote itself is written `'''`. Safe. -/
def byteOperand : Text → Option (Byte × Text)
  | '\'' :: c :: '\'' :: u => (charByte c).map (·, u)
  | t => indexOperand t

/-- The operands of `CKSUM`: bytes with a comma between two (rule R62); the first argument bounds their number. -/
def byteOperands : Nat → Text → Option (List Byte)
  | 0, _ => none
  | n + 1, t =>
    match byteOperand (skipBlanks t) with
    | none => none
    | some (b, u) =>
      match skipBlanks u with
      | ',' :: v => (byteOperands n v).map (b :: ·)
      | v => if lineEnds v then some [b] else none

/-- The operand of `CKSUM`: nothing, a text in double quotes, or a list of bytes (rule R62).
DESIGN CHOICE (entry 10): the first double quote after the opening one ends the text and there is no escape, so a text
holds no double quote (as a byte it is written `'"'` or `0x22`); a text that is not closed is no operand. Safe. -/
def cksumOperand (t : Text) : Option (List Byte) :=
  if lineEnds t then some []
  else match skipBlanks t with
    | '"' :: u =>
      match u.dropWhile (· != '"') with
      | _ :: v => if lineEnds v then textBytes (u.takeWhile (· != '"')) else none
      | [] => none
    | u => byteOperands u.length u

/-- A command without operand. -/
def noOperand (rest : Text) (is : List Instr) : Option (List Instr) := if lineEnds rest then some is else none

/-- A command with exactly one operand, which `operand` reads. -/
def oneOperand (operand : Text → Option (Byte × Text)) (rest : Text) (f : Byte → Instr) : Option (List Instr) :=
  match operand (skipBlanks rest) with
  | some (b, u) => if lineEnds u then some [f b] else none
  | none => none

/-- A mnemonic's operands follow after a blank, or the line ends there. -/
def mnemonicEnds : Text → Bool
  | [] => true
  | c :: _ => isBlank c || c == ';'

/-- The commands a line stands for (rules R60, R62): none for a blank line or a comment, one for a command, the expansion
of a pseudo-command; no answer for any other text. -/
def assembleLine (line : Text) : Option (List Instr) :=
  let t := skipBlanks line
  let word := t.takeWhile Char.isUpper
  let rest := t.dropWhile Char.isUpper
  if lineEnds t then some []
  else if !mnemonicEnds rest then none
  else if word = ['B', 'U', 'I', 'L', 'D'] then noOperand rest [.build]
  else if word = ['I', 'N', 'I', 'T'] then noOperand rest [.init]
  else if word = ['U', 'P', 'D'] then oneOperand byteOperand rest .upd
  else if word = ['R', 'D', 'C', 'R', 'C'] then noOperand rest [.rdcrc]
  else if word = ['R', 'D', 'T', 'A', 'B'] then oneOperand indexOperand rest .rdtab
  else if word = ['R', 'D', 'T', 'L', 'O'] then oneOperand indexOperand rest .rdtlo
  else if word = ['R', 'D', 'T', 'H', 'I'] then oneOperand indexOperand rest .rdthi
  else if word = ['C', 'K', 'S', 'U', 'M'] then (cksumOperand rest).map cksum
  else if word = ['G', 'E', 'T', 'T', 'A', 'B', 'L', 'E'] then noOperand rest getTable
  else if word = ['D', 'U', 'M', 'P', 'L', 'O'] then noOperand rest dumpLo
  else if word = ['D', 'U', 'M', 'P', 'H', 'I'] then noOperand rest dumpHi
  else none

/-- The command words that lines of text stand for (rules R55, R60). -/
def assemble (lines : List Text) : Option (List Word) :=
  (lines.mapM assembleLine).map fun iss => iss.flatten.map encode

/-- A hexadecimal digit in upper case. -/
def hexDigit (n : Nat) : Char := if n < 10 then Char.ofNat (0x30 + n) else Char.ofNat (0x37 + n)

/-- A byte as the spec's examples write it: `0x` and two digits. -/
def renderByte (b : Byte) : Text := ['0', 'x', hexDigit (b.toNat / 16), hexDigit (b.toNat % 16)]

/-- A command as one line of text (rule R60). -/
def render : Instr → Text
  | .build => ['B', 'U', 'I', 'L', 'D']
  | .init => ['I', 'N', 'I', 'T']
  | .upd b => ['U', 'P', 'D', ' '] ++ renderByte b
  | .rdcrc => ['R', 'D', 'C', 'R', 'C']
  | .rdtab i => ['R', 'D', 'T', 'A', 'B', ' '] ++ renderByte i
  | .rdtlo i => ['R', 'D', 'T', 'L', 'O', ' '] ++ renderByte i
  | .rdthi i => ['R', 'D', 'T', 'H', 'I', ' '] ++ renderByte i

end Sys2Proof.Machine
end

