-- ==== Sys2Proof/Safety.lean ====
section
/-! DEFINITION. What a good state is, in the terms the statements use. -/

namespace Sys2Proof.Machine

/-- Every index of the table holds `TableEntry(i)`. -/
abbrev TableBuilt (s : State) : Prop := ∀ i : Byte, readTable i s = some (tableEntry i)

/-- The table invariant of 10_state rule R18: whenever `BUILT = 1`, `TABLE[i] = TableEntry(i)` for every `i`. -/
abbrev TableInvariant (s : State) : Prop := s.built = true → TableBuilt s

/-- The machine's invariant: the table memory is canonical (entry 3), rule R18 holds, and `pc` is an index into the host's
list or its end (10_state rule R13). -/
structure StateInv (s : State) : Prop where
  wf : s.table.wf = true
  table : TableInvariant s
  pc : s.pc ≤ s.commands.length

/-- Two states that differ at most in the hidden state of 10_state rule R15: `BUILT` and the table. -/
structure SameVisible (s t : State) : Prop where
  crc : s.crc = t.crc
  pc : s.pc = t.pc
  commands : s.commands = t.commands
  responses : s.responses = t.responses

/-- The commands that have a response (30_encoding rule R56). -/
def responds : Instr → Bool
  | .build => false
  | .init => false
  | .upd _ => false
  | .rdcrc => true
  | .rdtab _ => true
  | .rdtlo _ => true
  | .rdthi _ => true

/-- The commands that read `TABLE` and so run `EnsureBuilt()` (40_table_builder rule R73). -/
def readsTable : Instr → Bool
  | .build => false
  | .init => false
  | .upd _ => true
  | .rdcrc => false
  | .rdtab _ => true
  | .rdtlo _ => true
  | .rdthi _ => true

/-- The commands that write `CRC` (10_state rule R11). -/
def writesCrc : Instr → Bool
  | .build => false
  | .init => true
  | .upd _ => true
  | .rdcrc => false
  | .rdtab _ => false
  | .rdtlo _ => false
  | .rdthi _ => false

end Sys2Proof.Machine
end

