-- ==== Sys2Proof/Certificates/Slice0/Obligations.lean ====
section
/-! DEFINITION. The statements about the machine, each from a numbered rule of the spec. -/

open Sys2Proof Sys2Proof.Machine

/-! ### Encoding -/

/-- Words written out from the opcode map of 30_encoding R53 decode to the commands they stand for, and a word of each
reserved kind (R57) is rejected. -/
def Obligations.DecodesSpecWords : Prop :=
  decode 0x0100 = .command .build ∧ decode 0x0200 = .command .init ∧
  decode 0x0300 = .command (.upd 0x00) ∧ decode 0x03FF = .command (.upd 0xFF) ∧
  decode 0x0343 = .command (.upd 0x43) ∧ decode 0x0400 = .command .rdcrc ∧
  decode 0x0500 = .command (.rdtab 0x00) ∧ decode 0x05FF = .command (.rdtab 0xFF) ∧
  decode 0x0690 = .command (.rdtlo 0x90) ∧ decode 0x0768 = .command (.rdthi 0x68) ∧
  decode 0x0041 = .reserved .opcZero ∧ decode 0x0800 = .reserved .opcUnused ∧
  decode 0x0101 = .reserved .argNotZero ∧ decode 0x0201 = .reserved .argNotZero ∧
  decode 0x0480 = .reserved .argNotZero

/-- The polynomial is `0x8408`, bit `n` of `0x1021` being its bit `15 - n` (00_scope R1). -/
def Obligations.PolyIsReflected1021 : Prop :=
  poly = 0x8408 ∧ ∀ n : Fin 16, (0x1021 : Word).getLsbD n = poly.getLsbD (15 - n)

/-- Encoding and decoding are inverse: every command at every operand value comes back from its word, and every command
word is the word of the command it decodes to (30_encoding R55). -/
def Obligations.DecodeEncodeAgree : Prop :=
  (∀ i : Instr, decode (encode i) = .command i) ∧
  (∀ (w : Word) (i : Instr), decode w = .command i → encode i = w)

/-- 1027 of the 65536 words are commands and 64509 are reserved (30_encoding R55). -/
def Obligations.CommandWordCount : Prop :=
  (Finset.univ.filter fun w : Word => (decodeTableWord 16 w.toNat).isSome = true).card = 1027 ∧
  (Finset.univ.filter fun w : Word => ¬(decodeTableWord 16 w.toNat).isSome = true).card = 64509

/-- The reserved words are exactly those rule R57 of 30_encoding lists. -/
def Obligations.ReservedWordsExactly : Prop :=
  (∀ w : Word, (∃ kind, decode w = .reserved kind) ↔
    w.toNat / 256 = 0x00 ∨ 0x08 ≤ w.toNat / 256 ∨
    ((w.toNat / 256 = 0x01 ∨ w.toNat / 256 = 0x02 ∨ w.toNat / 256 = 0x04) ∧ w.toNat % 256 ≠ 0x00)) ∧
  (∃ kind, decode 0x0000 = .reserved kind) ∧ (∃ kind, decode 0xFFFF = .reserved kind)

/-- A word is a command exactly when it selects a row of the opcode table, the row of that command, and no word selects two
rows (30_encoding R53). -/
def Obligations.RowsSelectCommands : Prop :=
  (∀ w : Word, wellFormedWord w = true ↔ ∃ i, decode w = .command i) ∧
  (∀ (w : Word) (i : Instr), decode w = .command i → i.row.selects w = true) ∧
  (∀ w : Word, ∀ r ∈ opcodeRows, ∀ q ∈ opcodeRows, r.selects w = true → q.selects w = true → r = q)

/-- Every command, written as a line of text, is read back (30_encoding R60). -/
def Obligations.AssembleRendered : Prop := ∀ i : Instr, assembleLine (render i) = some [i]

/-! ### The step -/

/-- When the word at `pc` decodes to a command, the step is that command's meaning at that state, with nothing around it. -/
def Obligations.StepRunsDecodedCommand : Prop :=
  ∀ (s : State) (w : Word) (i : Instr), s.commands[s.pc]? = some w → decode w = .command i → step s = exec i s

/-- A reserved word is refused, whatever the state (30_encoding R58). -/
def Obligations.StepRefusesReservedWord : Prop :=
  ∀ (s : State) (w : Word) (kind : ReservedKind), s.commands[s.pc]? = some w → decode w = .reserved kind →
    step s = .refused (.reservedWord kind)

/-- THE MODEL'S CHOICE (entry 5): with no command left (00_scope R9) a step is refused under a name of its own. -/
def Obligations.StepRefusesAtEndOfRun : Prop :=
  ∀ s : State, s.commands.length ≤ s.pc → step s = .refused .runEnded

/-- THE MODEL'S CHOICE (entry 4): a command word placed by `withFetchWord` runs at the very next step, from every state,
and nothing but the command list differs from the state it was placed in. -/
def Obligations.PlacedWordRunsNext : Prop :=
  ∀ (s : State) (nbits w : Nat) (i : Instr), decodeTableWord nbits w = some i →
    step (s.withFetchWord nbits w) = exec i (s.withFetchWord nbits w) ∧
    ∃ words, s.withFetchWord nbits w = { s with commands := words }

/-- A step has exactly two outcomes: the next state with at most one response, when the word decodes to a command, or a
refusal, when it is reserved; there is no fault (70_reset_and_hazards R139). -/
def Obligations.StepHasTwoOutcomes : Prop :=
  ∀ (s : State) (w : Word), TableInvariant s → s.commands[s.pc]? = some w →
    (∀ i, decode w = .command i → ∃ t, step s = .next t ∧
      (t.responses = s.responses ∨ ∃ v, t.responses = s.responses ++ [v])) ∧
    (∀ kind, decode w = .reserved kind → step s = .refused (.reservedWord kind))

/-- Steps run a command list as its commands run one after another, each to completion in issue order: `n` steps over the
words of `n` commands are those `n` commands (20_memory R44). -/
def Obligations.StepsRunTheCommandList : Prop :=
  ∀ (cs : List Instr) (before after : List Word) (s : State),
    s.commands = before ++ cs.map encode ++ after → s.pc = before.length →
    Sys2Proof.core.run cs.length s = execList cs s

/-- A run of command words reaches its end: every command has completed and `pc` is the length of the list (00_scope R9,
70_reset_and_hazards R138). -/
def Obligations.RunOfCommandWordsEnds : Prop :=
  ∀ (b : Bool) (words : List Word), (∀ w ∈ words, wellFormedWord w = true) →
    ∃ t, runFromReset b words = .next t ∧ t.runOver = true ∧ t.pc = words.length

/-- A run whose list holds a reserved word is refused as a whole (30_encoding R58). -/
def Obligations.RunWithReservedWordRefused : Prop :=
  ∀ (b : Bool) (words : List Word), (∃ w ∈ words, wellFormedWord w = false) →
    ∃ kind, runFromReset b words = .refused (.reservedWord kind)

/-! ### Reset and invariants -/

/-- After reset, for either value of `BUILD_AT_RESET`: `CRC = 0x0000`, `BUILT = BUILD_AT_RESET`, and the table built or with
no value at any index (70_reset_and_hazards R130, R131). -/
def Obligations.ResetState : Prop :=
  ∀ b : Bool, (State.resetWith b).crc = 0x0000 ∧ (State.resetWith b).built = b ∧
    (b = true → ∀ i : Byte, readTable i (State.resetWith b) = some (tableEntry i)) ∧
    (b = false → ∀ i : Byte, readTable i (State.resetWith b) = none)

/-- A run starts with `pc = 0`, no responses and the host's list, and the reset state is such a start (entry 4: with an
empty list, THE MODEL'S CHOICE) at some value of `BUILD_AT_RESET` (70_reset_and_hazards R132). -/
def Obligations.StartOfRun : Prop :=
  (∀ (b : Bool) (words : List Word), (State.start b words).pc = 0 ∧ (State.start b words).responses = [] ∧
    (State.start b words).commands = words ∧ (State.start b words).crc = 0x0000) ∧
  ∃ b : Bool, State.reset = State.start b []

/-- Every start of a run, and the reset state, meets the invariant. -/
def Obligations.StartMeetsInvariant : Prop :=
  (∀ (b : Bool) (words : List Word), StateInv (State.start b words)) ∧ StateInv State.reset

/-- Every step keeps the invariant: the table memory canonical, `TABLE[i] = TableEntry(i)` whenever `BUILT = 1`, and `pc` in
the host's list or at its end (10_state R18, R13). -/
def Obligations.StepKeepsInvariant : Prop :=
  ∀ s t : State, StateInv s → step s = .next t → StateInv t

/-- Once built, the table is never mutated and stays built (10_state R18, R19). -/
def Obligations.BuiltTableNeverChanges : Prop :=
  ∀ s t : State, StateInv s → s.built = true → step s = .next t → t.table = s.table ∧ t.built = true

/-- `BUILT` after a command: 1 if it was 1, or if the command is `BUILD` or reads the table; no command makes it 0
(10_state R14). -/
def Obligations.BuiltFlagRule : Prop :=
  ∀ (i : Instr) (s t : State), exec i s = .next t → t.built = (s.built || i == .build || readsTable i)

/-- Every command ends with `pc <- pc + 1` and leaves the host's list alone; no command reads `pc`: from another `pc` it
does the same (10_state R13). -/
def Obligations.PcAdvancesByOne : Prop :=
  ∀ (i : Instr) (s t : State), exec i s = .next t →
    t.pc = s.pc + 1 ∧ t.commands = s.commands ∧
    ∀ k : Nat, exec i { s with pc := k } = .next { t with pc := k + 1 }

/-! ### Frames -/

/-- The frame table of 10_state R23: a command changes only what its row marks. `CRC` only by `INIT` and `UPD`; the table
and `BUILT` not at all by `INIT` and `RDCRC`, by a table-reading command only when `BUILT` was 0, and then to the built
table; every index of the table is named. -/
def Obligations.FrameOfEveryCommand : Prop :=
  ∀ (i : Instr) (s t : State), exec i s = .next t →
    (i ≠ .init ∧ (∀ b, i ≠ .upd b) → t.crc = s.crc) ∧
    (i = .init ∨ i = .rdcrc → t.built = s.built ∧ t.table = s.table ∧ ∀ j : Byte, readTable j t = readTable j s) ∧
    (readsTable i = true → s.built = true → t.built = true ∧ t.table = s.table ∧
      ∀ j : Byte, readTable j t = readTable j s) ∧
    (readsTable i = true → s.built = false → t.built = true ∧ ∀ j : Byte, readTable j t = some (tableEntry j)) ∧
    (i = .build → t.built = true ∧ ∀ j : Byte, readTable j t = some (tableEntry j)) ∧
    (i = .build ∨ i = .init ∨ (∃ b, i = .upd b) → t.responses = s.responses) ∧
    t.commands = s.commands

/-- `CRC` is written by reset and `INIT` (to `0x0000`) and by `UPD b` (to `CrcStep(CRC, b)`) and by nothing else; `RDCRC`
returns it unchanged; `BUILD` and the read-outs do the same whatever it holds (10_state R11). -/
def Obligations.CrcWritersAndReaders : Prop :=
  (∀ b : Bool, (State.resetWith b).crc = 0x0000) ∧
  ∀ (i : Instr) (s t : State), TableInvariant s → exec i s = .next t →
    (writesCrc i = false → t.crc = s.crc) ∧
    (i = .init → t.crc = 0x0000) ∧
    (∀ b, i = .upd b → t.crc = crcStep s.crc b) ∧
    (i = .rdcrc → t.responses = s.responses ++ [s.crc]) ∧
    (i = .build ∨ (∃ j, i = .rdtab j ∨ i = .rdtlo j ∨ i = .rdthi j) →
      ∀ c : Word, exec i { s with crc := c } = .next { t with crc := c })

/-- `RDCRC`, `RDTAB`, `RDTLO` and `RDTHI` produce exactly one response each, appended last, the byte reads one of at most
`0x00FF`; the other commands none (30_encoding R56). -/
def Obligations.ResponsesOfEveryCommand : Prop :=
  ∀ (i : Instr) (s t : State), exec i s = .next t →
    (responds i = true → ∃ v : Word, t.responses = s.responses ++ [v] ∧
      ((∃ j, i = .rdtlo j ∨ i = .rdthi j) → v.toNat ≤ 0x00FF)) ∧
    (responds i = false → t.responses = s.responses)

/-- Over a command list the responses are those of its read commands, in order after the earlier ones, and `pc` has counted
every command (30_encoding R56, 10_state R13). -/
def Obligations.ResponsesCountReadCommands : Prop :=
  ∀ (cs : List Instr) (s t : State), execList cs s = .next t →
    (∃ new : List Word, t.responses = s.responses ++ new ∧ new.length = cs.countP responds) ∧
    t.pc = s.pc + cs.length

/-! ### What each command does -/

/-- Every command completes normally, from every state of the block and for every operand (60_exceptions R110). -/
def Obligations.EveryCommandCompletes : Prop :=
  ∀ (i : Instr) (s : State), TableInvariant s → ∃ t, exec i s = .next t

/-- `BUILD` completes from every state: every entry is `TableEntry(i)`, `BUILT` is 1, `pc` advances and nothing else changes;
where the table was built already it only advances `pc` (40_table_builder R72). -/
def Obligations.BuildResult : Prop :=
  (∀ s : State, ∃ t, exec .build s = .next t ∧ (∀ i : Byte, readTable i t = some (tableEntry i)) ∧
    t.built = true ∧ t.crc = s.crc ∧ t.responses = s.responses ∧ t.commands = s.commands ∧ t.pc = s.pc + 1) ∧
  (∀ s : State, StateInv s → s.built = true → exec .build s = .next { s with pc := s.pc + 1 })

/-- `BUILD` is the loop its rule is written as: `TABLE[i] <- TableEntry(i)` for `i` from 0 up to 255, then `BUILT <- 1`
(40_table_builder R72). -/
def Obligations.BuildIsTheEntryLoop : Prop :=
  ∀ s : State, s.table.wf = true → exec .build s = .next (advance (buildLoop s))

/-- `EnsureBuilt()`: nothing when `BUILT` is 1; after it every entry is `TableEntry(i)` and `BUILT` 1; it touches nothing
else; every table-reading command runs it first, and `INIT` and `RDCRC` do not run it (40_table_builder R73). -/
def Obligations.EnsureBuiltEffect : Prop :=
  (∀ s : State, s.built = true → ensureBuilt s = s) ∧
  (∀ s : State, TableInvariant s → (ensureBuilt s).built = true ∧
    ∀ i : Byte, readTable i (ensureBuilt s) = some (tableEntry i)) ∧
  (∀ s : State, (ensureBuilt s).crc = s.crc ∧ (ensureBuilt s).pc = s.pc ∧
    (ensureBuilt s).commands = s.commands ∧ (ensureBuilt s).responses = s.responses) ∧
  (∀ (i : Instr) (s : State), readsTable i = true → exec i s = exec i (ensureBuilt s)) ∧
  (∀ (i : Instr) (s t : State), i = .init ∨ i = .rdcrc → exec i s = .next t →
    t.built = s.built ∧ t.table = s.table)

/-- A machine that rebuilds the table at every use, whatever `BUILT` is, would be the same machine
(93_implementation_defined U4, 40_table_builder R73). -/
def Obligations.RebuildingEveryTimeIsSame : Prop :=
  ∀ s : State, StateInv s → ensureBuilt s = fillTable s

/-- `INIT`, from every state: `CRC <- 0x0000`, `pc` advances, nothing else changes (41_checksum R83). -/
def Obligations.InitResult : Prop :=
  ∀ s : State, exec .init s = .next { s with crc := 0x0000, pc := s.pc + 1 }

/-- `UPD b`, for every byte and every state of the block: after `EnsureBuilt()`, `CRC` is
`(CRC >> 8) XOR TABLE[CRC[7:0] XOR b]`, which is `CrcStep(CRC, b)`; `pc` advances; nothing else changes
(41_checksum R84). -/
def Obligations.UpdResult : Prop :=
  ∀ (s : State) (b : Byte), TableInvariant s →
    exec (.upd b) s = .next { ensureBuilt s with
      crc := (s.crc >>> 8) ^^^ tableEntry (s.crc.setWidth 8 ^^^ b), pc := s.pc + 1 } ∧
    crcStep s.crc b = (s.crc >>> 8) ^^^ tableEntry (s.crc.setWidth 8 ^^^ b)

/-- `UPD b` uses the entry that the table holds, in states no run reaches too (41_checksum R84). -/
def Obligations.UpdReadsTheTable : Prop :=
  ∀ (s : State) (b : Byte) (v : Word), readTable (s.crc.setWidth 8 ^^^ b) (ensureBuilt s) = some v →
    exec (.upd b) s = .next { ensureBuilt s with crc := (s.crc >>> 8) ^^^ v, pc := s.pc + 1 }

/-- `RDCRC`, from every state: responds `CRC` as it is; nothing else changes but `pc` (41_checksum R85). -/
def Obligations.RdcrcResult : Prop :=
  ∀ s : State, exec .rdcrc s = .next { s with responses := s.responses ++ [s.crc], pc := s.pc + 1 }

/-- `RDTAB i`, `RDTLO i` and `RDTHI i`, for every index and every state of the block: after `EnsureBuilt()` they respond the
entry, its low byte (`value & 0xFF`) and its high byte (`value >> 8`); nothing else changes but `pc`
(42_table_readout R100, R101, R102). -/
def Obligations.ReadOutResults : Prop :=
  ∀ (s : State) (i : Byte), TableInvariant s →
    exec (.rdtab i) s = .next { ensureBuilt s with
      responses := s.responses ++ [tableEntry i], pc := s.pc + 1 } ∧
    exec (.rdtlo i) s = .next { ensureBuilt s with
      responses := s.responses ++ [tableEntry i &&& 0x00FF], pc := s.pc + 1 } ∧
    exec (.rdthi i) s = .next { ensureBuilt s with
      responses := s.responses ++ [tableEntry i >>> 8], pc := s.pc + 1 }

/-- THE MODEL'S CHOICE (entry 2): a read of an entry with no value, in a state no run reaches, is a fault by name
(70_reset_and_hazards R131). -/
def Obligations.ReadOfNoValueFaults : Prop :=
  ∀ (s : State) (i : Byte), s.built = true → readTable i s = none →
    exec (.rdtab i) s = .fault (.noTableEntry i) ∧ exec (.rdtlo i) s = .fault (.noTableEntry i) ∧
    exec (.rdthi i) s = .fault (.noTableEntry i) ∧
    exec (.upd (s.crc.setWidth 8 ^^^ i)) s = .fault (.noTableEntry i)

/-- The three read-outs of an index agree, `RDTAB = {RDTHI[7:0], RDTLO[7:0]} = (RDTHI << 8) XOR RDTLO`, and a host with the
two byte tables can compute `CrcStep` bytewise (42_table_readout R103). -/
def Obligations.ReadOutsAgree : Prop :=
  (∀ (s : State) (i : Byte), TableInvariant s → ∃ t tl th v lo hi,
    exec (.rdtab i) s = .next t ∧ t.responses = s.responses ++ [v] ∧
    exec (.rdtlo i) s = .next tl ∧ tl.responses = s.responses ++ [lo] ∧
    exec (.rdthi i) s = .next th ∧ th.responses = s.responses ++ [hi] ∧
    v = joinBytes (lowByte hi) (lowByte lo) ∧ v = (hi <<< 8) ^^^ lo) ∧
  (∀ (c : Word) (b : Byte),
    lowByte (crcStep c b) = highByte c ^^^ lowByte (tableEntry (lowByte c ^^^ b)) ∧
    highByte (crcStep c b) = highByte (tableEntry (lowByte c ^^^ b)))

/-! ### The pure functions -/

/-- `BitStep` and `Bit8` (40_table_builder R70): the step, eight of them, bit 15 of a step, and the rule's corner cases. -/
def Obligations.BitStepRule : Prop :=
  (∀ k : Word, bitStep k = if k.getLsbD 0 = true then (k >>> 1) ^^^ 0x8408 else k >>> 1) ∧
  (∀ k : Word, bit8 k = bitStep^[8] k) ∧
  (∀ k : Word, (bitStep k).getLsbD 15 = k.getLsbD 0) ∧
  bitStep 0x0000 = 0x0000 ∧ bitStep 0x0001 = 0x8408 ∧ bitStep 0x0002 = 0x0001 ∧ bitStep 0xFFFF = 0xFBF7 ∧
  bitStep 0x8408 = 0x4204 ∧ bit8 0x0001 = 0x1189

/-- `TableEntry(i) = Bit8(zext_16(i))`, and `BuildTable()` is the 256 entries in index order, with the rule's corner cases
(40_table_builder R71). -/
def Obligations.TableEntryRule : Prop :=
  (∀ i : Byte, tableEntry i = bit8 (i.setWidth 16)) ∧ buildTable.length = 256 ∧
  (∀ i : Byte, buildTable[i.toNat]? = some (tableEntry i)) ∧
  tableEntry 0x00 = 0x0000 ∧ tableEntry 0x01 = 0x1189 ∧ tableEntry 0x80 = poly ∧ tableEntry 0xFF = 0x0F78 ∧
  tableEntry 0x41 = 0x538D

/-- Linearity and the byte split: `BitStep`, `Bit8` and `TableEntry` distribute over XOR, and
`Bit8(x) = (x >> 8) XOR TableEntry(x[7:0])` (40_table_builder R75 a and d). -/
def Obligations.TableFunctionsLinear : Prop :=
  (∀ x y : Word, bitStep (x ^^^ y) = bitStep x ^^^ bitStep y) ∧
  (∀ x y : Word, bit8 (x ^^^ y) = bit8 x ^^^ bit8 y) ∧
  (∀ a b : Byte, tableEntry (a ^^^ b) = tableEntry a ^^^ tableEntry b) ∧
  (∀ x : Word, bit8 x = (x >>> 8) ^^^ tableEntry (x.setWidth 8))

/-- The entries are pairwise distinct, every byte is the high byte of exactly one entry, and the low bytes take 128 values
(40_table_builder R75 c). -/
def Obligations.TableEntriesDistinct : Prop :=
  Function.Injective tableEntry ∧ (∀ h : Byte, ∃! i : Byte, highByte (tableEntry i) = h) ∧
  (Finset.univ.image fun i : Byte => lowByte (tableEntry i)).card = 128

/-- Table-driven equals bit-serial: `CrcStep(c, b) = Bit8(c XOR zext_16(b))`, and the byte may be XORed in first
(41_checksum R88). -/
def Obligations.TableDrivenEqualsBitSerial : Prop :=
  ∀ (c : Word) (b : Byte), crcStep c b = bit8 (c ^^^ b.setWidth 16) ∧
    crcStep c b = crcStep (c ^^^ b.setWidth 16) 0x00

/-- `Checksum` is the left fold of `CrcStep` from `0x0000`, with no final XOR (41_checksum R81); with it the empty sequence,
the regression vector, two values that show order sensitivity, and incremental consistency. -/
def Obligations.ChecksumIsTheFold : Prop :=
  (∀ bytes : List Byte, checksum bytes =
    bytes.foldl (fun (c : Word) b => (c >>> 8) ^^^ tableEntry (c.setWidth 8 ^^^ b)) 0x0000) ∧
  checksum [] = 0x0000 ∧
  checksum [0x43, 0x52, 0x43, 0x31, 0x36, 0x54, 0x45, 0x53, 0x54, 0x44, 0x41, 0x54, 0x41] = 0x3416 ∧
  checksum [0x41, 0x42] = 0x3EA8 ∧ checksum [0x42, 0x41] = 0x265B ∧
  (∀ (c : Word) (first second : List Byte), crcFold (crcFold c first) second = crcFold c (first ++ second))

/-- For each byte, `CrcStep` permutes the register values, with the inverse the rule gives, and sequences that differ in
exactly one byte have different checksums (41_checksum R90). -/
def Obligations.OneByteErrorsDetected : Prop :=
  (∀ b : Byte, Function.Bijective fun c : Word => crcStep c b) ∧
  (∀ (c : Word) (b i : Byte), highByte (tableEntry i) = highByte (crcStep c b) →
    lowByte c = i ^^^ b ∧ highByte c = lowByte (crcStep c b) ^^^ lowByte (tableEntry i)) ∧
  (∀ (before after : List Byte) (x y : Byte), x ≠ y →
    checksum (before ++ x :: after) ≠ checksum (before ++ y :: after))

/-- The residue: the register's own low byte and then its own high byte end at zero, so a sequence followed by its checksum,
low byte first, has checksum `0x0000`; the other order need not (41_checksum R91). -/
def Obligations.ResidueIsZero : Prop :=
  (∀ c : Word, crcStep (crcStep c (lowByte c)) (highByte c) = 0x0000) ∧
  (∀ bytes : List Byte, checksum (bytes ++ [lowByte (checksum bytes), highByte (checksum bytes)]) = 0x0000) ∧
  checksum [0x41] = 0x538D ∧ checksum [0x41, 0x8D, 0x53] = 0x0000 ∧ checksum [0x41, 0x53, 0x8D] = 0xFAD8

/-! ### Command lists -/

/-- `CKSUM S` from every state of the block: exactly one response, `Checksum(S)`, which is also left in `CRC`; `BUILT` is 1 if
`S` has a byte and unchanged if not; the table is as `EnsureBuilt()` leaves it (41_checksum R86). -/
def Obligations.CksumFromEveryState : Prop :=
  ∀ (s : State) (bytes : List Byte), TableInvariant s → ∃ t,
    execList (cksum bytes) s = .next t ∧ t.responses = s.responses ++ [checksum bytes] ∧
    t.crc = checksum bytes ∧ t.built = (s.built || !bytes.isEmpty) ∧
    t.table = if bytes.isEmpty then s.table else (ensureBuilt s).table

/-- `CRC` has no hidden companion: after `INIT` from any state of the block, or from any start of a run, any command list
without another `INIT` leaves `CRC` at the checksum of its `UPD` bytes, whatever else stands between them
(10_state R12). -/
def Obligations.CrcDependsOnUpdBytesOnly : Prop :=
  (∀ (s : State) (cs : List Instr), TableInvariant s → (∀ i ∈ cs, i ≠ .init) →
    ∃ t, execList (.init :: cs) s = .next t ∧ t.crc = checksum (updBytes cs)) ∧
  (∀ (b : Bool) (words : List Word) (cs : List Instr), (∀ i ∈ cs, i ≠ .init) →
    ∃ t, execList cs (State.start b words) = .next t ∧ t.crc = checksum (updBytes cs))

/-- `BUILT` and the table are hidden: two states of the block that differ in nothing else step alike, to states that again
differ in nothing else, or are refused alike (10_state R15). -/
def Obligations.HiddenStateNeverShows : Prop :=
  ∀ s t : State, TableInvariant s → TableInvariant t → SameVisible s t →
    (∀ s', step s = .next s' → ∃ t', step t = .next t' ∧ SameVisible s' t') ∧
    (∀ r, step s = .refused r → step t = .refused r) ∧
    (∀ r, step s ≠ .fault r)

/-- No response, and not the final `CRC`, of a run depends on `BUILD_AT_RESET`, for every command list of the host
(00_scope R4, 10_state R15). -/
def Obligations.BuildAtResetUnobservable : Prop :=
  ∀ words : List Word,
    (∀ s, runFromReset false words = .next s → ∃ t, runFromReset true words = .next t ∧ SameVisible s t) ∧
    (∀ r, runFromReset false words = .refused r → runFromReset true words = .refused r) ∧
    (∀ r, runFromReset false words ≠ .fault r)

/-- Where `BUILD` commands stand in a command list changes no response and not the final `CRC`: the list without them gives
the same (10_state R15). -/
def Obligations.BuildPlacementUnobservable : Prop :=
  ∀ (s : State) (cs : List Instr), TableInvariant s → ∃ t u,
    execList cs s = .next t ∧ execList (cs.filter (· != .build)) s = .next u ∧
    t.responses = u.responses ∧ t.crc = u.crc

/-- `GETTABLE` responds the 256 entries in index order, and `DUMPLO` then `DUMPHI` the 256 low bytes and then the 256 high
bytes; `CRC` is unchanged by all of them (30_encoding R62, 20_memory R36). -/
def Obligations.TableDumpsInOrder : Prop :=
  ∀ s : State, TableInvariant s →
    (∃ t, execList getTable s = .next t ∧ t.responses = s.responses ++ buildTable ∧ t.crc = s.crc) ∧
    (∃ t, execList (dumpLo ++ dumpHi) s = .next t ∧ t.crc = s.crc ∧
      t.responses = s.responses ++ buildTable.map (fun v : Word => v &&& 0x00FF) ++ buildTable.map (fun v : Word => v >>> 8))
end

