-- ==== Sys2Proof/Laws/Memory.lean ====
section
/-! SUPPORT. The laws of the table memory: what a read gives after a write, and that every operation keeps the canonical
form. -/

namespace Sys2Proof.Machine

/-- A read after a write: the written value at its index, what was there before at every other. -/
theorem Memory.read_write (m : Memory) (i j : Nat) (v : Word) :
    (m.write i v).read j = if i = j then some v else m.read j := by
  induction m with
  | nil => rfl
  | cons c m ih =>
    obtain ⟨a, x⟩ := c
    simp only [Memory.write]
    split
    · simp [Memory.read]
    · split
      · next h => subst h; by_cases hij : i = j <;> simp [Memory.read, hij]
      · by_cases haj : a = j <;> simp [Memory.read, ih, haj]
        intro h; subst h; simp_all

theorem Memory.wfFrom_mono {lo lo' : Nat} {m : Memory} (h : m.wfFrom lo = true) (hle : lo' ≤ lo) :
    m.wfFrom lo' = true := by
  cases m with
  | nil => rfl
  | cons c m =>
    obtain ⟨a, x⟩ := c
    simp only [Memory.wfFrom, Bool.and_eq_true, decide_eq_true_eq] at h ⊢
    exact ⟨⟨by omega, h.1.2⟩, h.2⟩

theorem Memory.wfFrom_write {lo i : Nat} {m : Memory} (v : Word) (h : m.wfFrom lo = true) (hlo : lo ≤ i)
    (hi : i < 256) : (m.write i v).wfFrom lo = true := by
  induction m generalizing lo with
  | nil => simp [Memory.write, Memory.wfFrom, hlo, hi]
  | cons c m ih =>
    obtain ⟨a, x⟩ := c
    simp only [Memory.wfFrom, Bool.and_eq_true, decide_eq_true_eq] at h
    simp only [Memory.write]
    split
    · simp only [Memory.wfFrom, Bool.and_eq_true, decide_eq_true_eq]
      exact ⟨⟨hlo, hi⟩, ⟨by omega, h.1.2⟩, h.2⟩
    · split
      · next e => subst e; simp [Memory.wfFrom, h.2, hlo, hi]
      · simp only [Memory.wfFrom, Bool.and_eq_true, decide_eq_true_eq]
        exact ⟨h.1, ih h.2 (by omega)⟩

/-- A write inside the index space keeps the canonical form. -/
theorem Memory.wf_write {m : Memory} {i : Nat} (v : Word) (h : m.wf = true) (hi : i < 256) :
    (m.write i v).wf = true :=
  Memory.wfFrom_write v h (Nat.zero_le i) hi

/-- Below its bound a canonical memory has no value. -/
theorem Memory.read_eq_none_of_lt {lo i : Nat} {m : Memory} (h : m.wfFrom lo = true) (hi : i < lo) :
    m.read i = none := by
  induction m generalizing lo with
  | nil => rfl
  | cons c m ih =>
    obtain ⟨a, x⟩ := c
    simp only [Memory.wfFrom, Bool.and_eq_true, decide_eq_true_eq] at h
    rw [Memory.read, if_neg (by omega)]
    exact ih h.2 (by omega)

/-- Canonical memories that read alike are the same list. -/
theorem Memory.ext_of_wfFrom {lo : Nat} {m n : Memory} (hm : m.wfFrom lo = true) (hn : n.wfFrom lo = true)
    (h : ∀ i, m.read i = n.read i) : m = n := by
  induction m generalizing n lo with
  | nil =>
    cases n with
    | nil => rfl
    | cons c n => have := h c.1; simp [Memory.read] at this
  | cons c m ih =>
    obtain ⟨a, x⟩ := c
    cases n with
    | nil => have := h a; simp [Memory.read] at this
    | cons d n =>
      obtain ⟨b, y⟩ := d
      simp only [Memory.wfFrom, Bool.and_eq_true, decide_eq_true_eq] at hm hn
      have hab : a = b := by
        rcases Nat.lt_trichotomy a b with hlt | heq | hgt
        · have := h a
          rw [Memory.read, if_pos rfl, Memory.read, if_neg (by omega),
            Memory.read_eq_none_of_lt hn.2 (by omega)] at this
          cases this
        · exact heq
        · have := h b
          rw [Memory.read, if_neg (by omega), Memory.read_eq_none_of_lt hm.2 (by omega), Memory.read,
            if_pos rfl] at this
          cases this
      subst hab
      have hxy : x = y := by simpa [Memory.read] using h a
      subst hxy
      refine congrArg _ (ih hm.2 hn.2 fun i => ?_)
      by_cases hi : a = i
      · subst hi
        rw [Memory.read_eq_none_of_lt hm.2 (by omega), Memory.read_eq_none_of_lt hn.2 (by omega)]
      · simpa [Memory.read, hi] using h i

theorem Memory.ext_of_wf {m n : Memory} (hm : m.wf = true) (hn : n.wf = true) (h : ∀ i, m.read i = n.read i) :
    m = n :=
  Memory.ext_of_wfFrom hm hn h

/-- A canonical memory has no value outside the index space. -/
theorem Memory.read_eq_none_of_ge {lo i : Nat} {m : Memory} (h : m.wfFrom lo = true) (hi : 256 ≤ i) :
    m.read i = none := by
  induction m generalizing lo with
  | nil => rfl
  | cons c m ih =>
    obtain ⟨a, x⟩ := c
    simp only [Memory.wfFrom, Bool.and_eq_true, decide_eq_true_eq] at h
    rw [Memory.read, if_neg (by omega)]
    exact ih h.2

theorem read_map_range' (f : Nat → Word) (a n i : Nat) :
    Memory.read ((List.range' a n).map fun k => (k, f k)) i = if a ≤ i ∧ i < a + n then some (f i) else none := by
  induction n generalizing a with
  | zero => rw [if_neg (by omega)]; rfl
  | succ n ih =>
    rw [List.range'_succ, List.map_cons, Memory.read, ih]
    by_cases hai : a = i
    · subst hai; simp
    · rw [if_neg hai]
      exact if_congr (by omega) rfl rfl

theorem wfFrom_map_range' (f : Nat → Word) (a n : Nat) (h : a + n ≤ 256) :
    Memory.wfFrom a ((List.range' a n).map fun k => (k, f k)) = true := by
  induction n generalizing a with
  | zero => rfl
  | succ n ih =>
    rw [List.range'_succ, List.map_cons, Memory.wfFrom]
    simp [ih (a + 1) (by omega)]
    omega

/-- The built memory is in canonical form. -/
theorem builtMemory_wf : builtMemory.wf = true := wfFrom_map_range' _ 0 256 (by omega)

/-- The built memory holds `TableEntry(i)` at every index (rule R71). -/
theorem read_builtMemory (i : Byte) : builtMemory.read i.toNat = some (tableEntry i) := by
  rw [builtMemory, read_map_range' (fun k => tableEntry (BitVec.ofNat 8 k)), if_pos ⟨Nat.zero_le _, by omega⟩,
    BitVec.ofNat_toNat, BitVec.setWidth_eq]

/-- A canonical memory that holds `TableEntry(i)` at every index is the built memory. -/
theorem eq_builtMemory {m : Memory} (hm : m.wf = true) (h : ∀ i : Byte, m.read i.toNat = some (tableEntry i)) :
    m = builtMemory := by
  refine Memory.ext_of_wf hm builtMemory_wf fun i => ?_
  by_cases hi : i < 256
  · have e : (BitVec.ofNat 8 i).toNat = i := by rw [BitVec.toNat_ofNat]; omega
    rw [← e, h, read_builtMemory]
  · rw [Memory.read_eq_none_of_ge hm (by omega), Memory.read_eq_none_of_ge builtMemory_wf (by omega)]

end Sys2Proof.Machine
end

