-- ==== Sys2Proof/Laws/State.lean ====
section
/-! SUPPORT. One lemma per field per update of the state, so that no proof unfolds a record update. -/

namespace Sys2Proof.Machine

variable (s : State)

@[simp] theorem setBuilt_crc : (setBuilt s).crc = s.crc := rfl
@[simp] theorem setBuilt_table : (setBuilt s).table = s.table := rfl
@[simp] theorem setBuilt_built : (setBuilt s).built = true := rfl
@[simp] theorem setBuilt_pc : (setBuilt s).pc = s.pc := rfl
@[simp] theorem setBuilt_commands : (setBuilt s).commands = s.commands := rfl
@[simp] theorem setBuilt_responses : (setBuilt s).responses = s.responses := rfl

@[simp] theorem setCrc_crc (v : Word) : (setCrc v s).crc = v := rfl
@[simp] theorem setCrc_table (v : Word) : (setCrc v s).table = s.table := rfl
@[simp] theorem setCrc_built (v : Word) : (setCrc v s).built = s.built := rfl
@[simp] theorem setCrc_pc (v : Word) : (setCrc v s).pc = s.pc := rfl
@[simp] theorem setCrc_commands (v : Word) : (setCrc v s).commands = s.commands := rfl
@[simp] theorem setCrc_responses (v : Word) : (setCrc v s).responses = s.responses := rfl

@[simp] theorem respond_crc (v : Word) : (respond v s).crc = s.crc := rfl
@[simp] theorem respond_table (v : Word) : (respond v s).table = s.table := rfl
@[simp] theorem respond_built (v : Word) : (respond v s).built = s.built := rfl
@[simp] theorem respond_pc (v : Word) : (respond v s).pc = s.pc := rfl
@[simp] theorem respond_commands (v : Word) : (respond v s).commands = s.commands := rfl
@[simp] theorem respond_responses (v : Word) : (respond v s).responses = s.responses ++ [v] := rfl

@[simp] theorem advance_crc : (advance s).crc = s.crc := rfl
@[simp] theorem advance_table : (advance s).table = s.table := rfl
@[simp] theorem advance_built : (advance s).built = s.built := rfl
@[simp] theorem advance_pc : (advance s).pc = s.pc + 1 := rfl
@[simp] theorem advance_commands : (advance s).commands = s.commands := rfl
@[simp] theorem advance_responses : (advance s).responses = s.responses := rfl

@[simp] theorem writeTable_crc (i : Byte) (v : Word) : (writeTable i v s).crc = s.crc := rfl
@[simp] theorem writeTable_table (i : Byte) (v : Word) : (writeTable i v s).table = s.table.write i.toNat v := rfl
@[simp] theorem writeTable_built (i : Byte) (v : Word) : (writeTable i v s).built = s.built := rfl
@[simp] theorem writeTable_pc (i : Byte) (v : Word) : (writeTable i v s).pc = s.pc := rfl
@[simp] theorem writeTable_commands (i : Byte) (v : Word) : (writeTable i v s).commands = s.commands := rfl
@[simp] theorem writeTable_responses (i : Byte) (v : Word) : (writeTable i v s).responses = s.responses := rfl

@[simp] theorem fillTable_crc : (fillTable s).crc = s.crc := rfl
@[simp] theorem fillTable_table : (fillTable s).table = builtMemory := rfl
@[simp] theorem fillTable_built : (fillTable s).built = true := rfl
@[simp] theorem fillTable_pc : (fillTable s).pc = s.pc := rfl
@[simp] theorem fillTable_commands : (fillTable s).commands = s.commands := rfl
@[simp] theorem fillTable_responses : (fillTable s).responses = s.responses := rfl

@[simp] theorem placeCommand_crc (w : Word) : (placeCommand w s).crc = s.crc := rfl
@[simp] theorem placeCommand_table (w : Word) : (placeCommand w s).table = s.table := rfl
@[simp] theorem placeCommand_built (w : Word) : (placeCommand w s).built = s.built := rfl
@[simp] theorem placeCommand_pc (w : Word) : (placeCommand w s).pc = s.pc := rfl
@[simp] theorem placeCommand_responses (w : Word) : (placeCommand w s).responses = s.responses := rfl

@[simp] theorem resetWith_crc (b : Bool) : (State.resetWith b).crc = 0 := rfl
@[simp] theorem resetWith_built (b : Bool) : (State.resetWith b).built = b := rfl
@[simp] theorem resetWith_pc (b : Bool) : (State.resetWith b).pc = 0 := rfl
@[simp] theorem resetWith_commands (b : Bool) : (State.resetWith b).commands = [] := rfl
@[simp] theorem resetWith_responses (b : Bool) : (State.resetWith b).responses = [] := rfl
@[simp] theorem resetWith_table (b : Bool) : (State.resetWith b).table = if b then builtMemory else [] := rfl

end Sys2Proof.Machine
end

