-- ==== Sys2Proof/Laws/Ops.lean ====
section
/-! SUPPORT. For each shared operation, one lemma that says what it can do. -/

namespace Sys2Proof.Machine

theorem writeTable_wf {s : State} (i : Byte) (v : Word) (h : s.table.wf = true) : (writeTable i v s).table.wf = true :=
  Memory.wf_write v h i.isLt

/-- A table read after a table write (20_memory rule R33). -/
theorem readTable_writeTable (i j : Byte) (v : Word) (s : State) :
    readTable j (writeTable i v s) = if i = j then some v else readTable j s := by
  simp only [readTable, writeTable_table, Memory.read_write, ← BitVec.toNat_inj]

theorem readTable_congr {s t : State} (h : s.table = t.table) (i : Byte) : readTable i s = readTable i t := by
  rw [readTable, readTable, h]

theorem readTable_fillTable (s : State) (i : Byte) : readTable i (fillTable s) = some (tableEntry i) :=
  read_builtMemory i

/-- All that `EnsureBuilt()` can do: nothing when `BUILT` is 1, the whole build when it is 0 (rule R73). -/
theorem ensureBuilt_cases (s : State) :
    (s.built = true ∧ ensureBuilt s = s) ∨ (s.built = false ∧ ensureBuilt s = fillTable s) := by
  cases h : s.built <;> simp [ensureBuilt, h]

@[simp] theorem ensureBuilt_crc (s : State) : (ensureBuilt s).crc = s.crc := by
  rcases ensureBuilt_cases s with ⟨_, h⟩ | ⟨_, h⟩ <;> simp [h]

@[simp] theorem ensureBuilt_pc (s : State) : (ensureBuilt s).pc = s.pc := by
  rcases ensureBuilt_cases s with ⟨_, h⟩ | ⟨_, h⟩ <;> simp [h]

@[simp] theorem ensureBuilt_commands (s : State) : (ensureBuilt s).commands = s.commands := by
  rcases ensureBuilt_cases s with ⟨_, h⟩ | ⟨_, h⟩ <;> simp [h]

@[simp] theorem ensureBuilt_responses (s : State) : (ensureBuilt s).responses = s.responses := by
  rcases ensureBuilt_cases s with ⟨_, h⟩ | ⟨_, h⟩ <;> simp [h]

@[simp] theorem ensureBuilt_built (s : State) : (ensureBuilt s).built = true := by
  rcases ensureBuilt_cases s with ⟨hb, h⟩ | ⟨_, h⟩ <;> simp [*]

/-- `EnsureBuilt()` keeps the canonical form. -/
theorem ensureBuilt_wf {s : State} (h : s.table.wf = true) : (ensureBuilt s).table.wf = true := by
  rcases ensureBuilt_cases s with ⟨_, e⟩ | ⟨_, e⟩
  · rwa [e]
  · rw [e]; exact builtMemory_wf

/-- All that `withEntry` can do: pass on the entry with the state after the build, or fault where there is none. -/
theorem withEntry_cases (i : Byte) (s : State) (k : Word → State → Host.Outcome State Fault Refusal) :
    (∃ v, readTable i (ensureBuilt s) = some v ∧ withEntry i s k = k v (ensureBuilt s)) ∨
    (readTable i (ensureBuilt s) = none ∧ withEntry i s k = .fault (.noTableEntry i)) := by
  cases h : readTable i (ensureBuilt s) with
  | none => exact .inr ⟨rfl, by simp [withEntry, h]⟩
  | some v => exact .inl ⟨v, rfl, by simp [withEntry, h]⟩

/-- A fetch reads the word at `pc`, or finds the list exhausted. -/
theorem fetchCommand_eq_none (s : State) : fetchCommand s = none ↔ s.commands.length ≤ s.pc :=
  List.getElem?_eq_none_iff

theorem fetchCommand_eq_some_lt {s : State} {w : Word} (h : fetchCommand s = some w) : s.pc < s.commands.length :=
  (List.getElem?_eq_some_iff.mp h).1

/-- A placed command is the next one fetched. -/
theorem fetchCommand_placeCommand (w : Word) (s : State) : fetchCommand (placeCommand w s) = some w := by
  have hlen : (s.commands.take s.pc ++ List.replicate (s.pc - s.commands.length) (0 : Word)).length = s.pc := by
    rw [List.length_append, List.length_take, List.length_replicate]; omega
  simp only [fetchCommand, placeCommand]
  rw [List.append_assoc, List.getElem?_append_right (by omega), hlen]
  simp

/-- All that a step can be: the run is over, the word is reserved, or the decoded command runs. -/
theorem step_cases (s : State) :
    (s.commands.length ≤ s.pc ∧ step s = .refused .runEnded) ∨
    (∃ w kind, fetchCommand s = some w ∧ decode w = .reserved kind ∧ step s = .refused (.reservedWord kind)) ∨
    (∃ w i, fetchCommand s = some w ∧ decode w = .command i ∧ step s = exec i s) := by
  cases h : fetchCommand s with
  | none => exact .inl ⟨(fetchCommand_eq_none s).mp h, by simp [step, h]⟩
  | some w =>
    cases hd : decode w with
    | reserved kind => exact .inr (.inl ⟨w, kind, rfl, hd, by simp [step, h, hd]⟩)
    | command i => exact .inr (.inr ⟨w, i, rfl, hd, by simp [step, h, hd]⟩)

/-- Where a step gives a next state, it ran the decoded command. -/
theorem step_next {s t : State} (h : step s = .next t) :
    ∃ w i, fetchCommand s = some w ∧ decode w = .command i ∧ exec i s = .next t := by
  rcases step_cases s with ⟨_, e⟩ | ⟨_, _, _, _, e⟩ | ⟨w, i, hw, hd, e⟩
  · rw [e] at h; cases h
  · rw [e] at h; cases h
  · exact ⟨w, i, hw, hd, e ▸ h⟩

end Sys2Proof.Machine
end

