-- ==== Sys2Proof/Laws/PerInstr.lean ====
section
/-! SUPPORT. Facts about every command as syntax, one lemma per command. -/

/-- Among the rows of the opcode table, a command's word selects its own row and no other (30_encoding rule R53). -/
def Sys2Proof.Laws.OneRow.Statement (i : Sys2Proof.Instr) : Prop :=
  Sys2Proof.opcodeRows.filter (·.selects (Sys2Proof.encode i)) = [i.row]

namespace Sys2Proof.Laws.OneRow

theorem build : Statement .build := by unfold Statement; decide

theorem init : Statement .init := by unfold Statement; decide

theorem upd (b : Byte) : Statement (.upd b) := by unfold Statement; revert b; decide +kernel

theorem rdcrc : Statement .rdcrc := by unfold Statement; decide

theorem rdtab (i : Byte) : Statement (.rdtab i) := by unfold Statement; revert i; decide +kernel

theorem rdtlo (i : Byte) : Statement (.rdtlo i) := by unfold Statement; revert i; decide +kernel

theorem rdthi (i : Byte) : Statement (.rdthi i) := by unfold Statement; revert i; decide +kernel

end Sys2Proof.Laws.OneRow
end

