-- ==== Sys2Proof/Laws/Run.lean ====
section
/-! SUPPORT. How runs and command lists unfold, one command at a time. -/

namespace Sys2Proof.Machine

@[simp] theorem execList_nil (s : State) : execList [] s = .next s := rfl

/-- A command that gives a next state passes it on to the rest of the list. -/
theorem execList_cons {i : Instr} {s t : State} (rest : List Instr) (h : exec i s = .next t) :
    execList (i :: rest) s = execList rest t := by
  simp [execList, h]

/-- Where a list gives a next state, its first command did, and the rest went on from there. -/
theorem execList_cons_next {i : Instr} {rest : List Instr} {s t : State} (h : execList (i :: rest) s = .next t) :
    ∃ u, exec i s = .next u ∧ execList rest u = .next t := by
  cases hi : exec i s with
  | next u => exact ⟨u, rfl, execList_cons rest hi ▸ h⟩
  | fault r => simp [execList, hi] at h
  | refused r => simp [execList, hi] at h

/-- A list that gives a next state passes it on to what follows. -/
theorem execList_append {cs : List Instr} {s t : State} (rest : List Instr) (h : execList cs s = .next t) :
    execList (cs ++ rest) s = execList rest t := by
  induction cs generalizing s with
  | nil => cases h; rfl
  | cons i cs ih =>
    obtain ⟨u, hu, h'⟩ := execList_cons_next h
    rw [List.cons_append, execList_cons _ hu, ih h']

/-- A run that steps on goes on from the next state. -/
theorem run_succ_next {s t : State} (k : Nat) (h : step s = .next t) :
    Sys2Proof.core.run (k + 1) s = Sys2Proof.core.run k t := by
  have h' : Sys2Proof.core.step s = .next t := h
  simp only [Host.Core.run, h']

/-- A run stops at the first refusal. -/
theorem run_succ_refused {s : State} {r : Refusal} (k : Nat) (h : step s = .refused r) :
    Sys2Proof.core.run (k + 1) s = .refused r := by
  have h' : Sys2Proof.core.step s = .refused r := h
  simp only [Host.Core.run, h']

/-- A run stops at the first fault. -/
theorem run_succ_fault {s : State} {r : Fault} (k : Nat) (h : step s = .fault r) :
    Sys2Proof.core.run (k + 1) s = .fault r := by
  have h' : Sys2Proof.core.step s = .fault r := h
  simp only [Host.Core.run, h']

end Sys2Proof.Machine
end

