-- ==== Sys2Proof/Tests/Slice0.lean ====
section
/-! SUPPORT. Tests of the model against values the spec gives (95_test_vectors.md and the rules' own examples; each test's
comment names its source), and a witness for every statement that has hypotheses. -/

namespace Sys2Proof.Tests

open Sys2Proof.Machine

/-- A state with the table not built. -/
def unbuilt (c : Word) : State := ⟨c, [], false, 0, [], []⟩

/-- A state with the table built. -/
def built (c : Word) : State := ⟨c, builtMemory, true, 0, [], []⟩

/-- The register after an outcome; a stop reads as nothing. -/
def crcOf : Host.Outcome State Fault Refusal → Option Word
  | .next t => some t.crc
  | .fault _ => none
  | .refused _ => none

/-- The responses after an outcome. -/
def responsesOf : Host.Outcome State Fault Refusal → Option (List Word)
  | .next t => some t.responses
  | .fault _ => none
  | .refused _ => none

/-- `BUILT` after an outcome. -/
def builtOf : Host.Outcome State Fault Refusal → Option Bool
  | .next t => some t.built
  | .fault _ => none
  | .refused _ => none

/-- The refusal of an outcome. -/
def refusalOf : Host.Outcome State Fault Refusal → Option Refusal
  | .next _ => none
  | .fault _ => none
  | .refused r => some r

/-! ### Encoding: well-formed words, decoder, assembler -/

/-- D-EN-9, D-EN-10 (`opc = 0x00`). -/
theorem test_illFormed_opcZero : wellFormedWord 0x0000 = false ∧ wellFormedWord 0x0041 = false := by decide

/-- D-EN-14, D-EN-15 (`opc` from `0x08` on). -/
theorem test_illFormed_opcUnused : wellFormedWord 0x0800 = false ∧ wellFormedWord 0xFFFF = false := by decide

/-- D-EN-11, D-EN-12, D-EN-13 (`arg` not zero). -/
theorem test_illFormed_argNotZero :
    wellFormedWord 0x0101 = false ∧ wellFormedWord 0x0201 = false ∧ wellFormedWord 0x0480 = false := by decide

/-- R53: the first and last word of each row. -/
theorem test_wellFormed_rows :
    [0x0100, 0x0200, 0x0300, 0x03FF, 0x0400, 0x0500, 0x05FF, 0x0600, 0x06FF, 0x0700, 0x07FF].all wellFormedWord = true := by
  decide

/-- D-EN-1: `opc` 00000001, `arg` 00000000. -/
theorem test_decode_build : decode 0b0000000100000000 = .command .build := by decide

/-- D-EN-2: `opc` 00000010, `arg` 00000000. -/
theorem test_decode_init : decode 0b0000001000000000 = .command .init := by decide

/-- D-EN-5: `opc` 00000011, `arg` 01000011. -/
theorem test_decode_upd : decode 0b0000001101000011 = .command (.upd 0x43) := by decide

/-- D-EN-6: `opc` 00000100, `arg` 00000000. -/
theorem test_decode_rdcrc : decode 0b0000010000000000 = .command .rdcrc := by decide

/-- D-EN-7: `opc` 00000101, `arg` 11111111. -/
theorem test_decode_rdtab : decode 0b0000010111111111 = .command (.rdtab 0xFF) := by decide

/-- D-RD-9: `opc` 00000110, `arg` 10010000. -/
theorem test_decode_rdtlo : decode 0b0000011010010000 = .command (.rdtlo 0x90) := by decide

/-- D-RD-11: `opc` 00000111, `arg` 01101000. -/
theorem test_decode_rdthi : decode 0b0000011101101000 = .command (.rdthi 0x68) := by decide

/-- R57, at the edges of its three clauses. -/
theorem test_decode_reserved_edges :
    decode 0x00FF = .reserved .opcZero ∧ decode 0x01FF = .reserved .argNotZero ∧ decode 0x0401 = .reserved .argNotZero ∧
    decode 0x0800 = .reserved .opcUnused ∧ decode 0xFFFF = .reserved .opcUnused := by decide

/-- The words of R55. -/
theorem test_encode_words :
    [encode .build, encode .init, encode (.upd 0xFF), encode .rdcrc, encode (.rdtab 1), encode (.rdtlo 2),
      encode (.rdthi 3)] = [0x0100, 0x0200, 0x03FF, 0x0400, 0x0501, 0x0602, 0x0703] := by decide

/-- R60: `UPD 'C'` is `UPD 0x43`; a comment runs to the end of the line. -/
theorem test_assemble_upd : assembleLine ['U', 'P', 'D', ' ', '\'', 'C', '\'', ' ', ';', 'x'] = some [.upd 0x43] ∧
    assembleLine ['U', 'P', 'D', ' ', '0', 'x', '4', '3'] = some [.upd 0x43] ∧
    assembleLine ['U', 'P', 'D', ' ', '6', '7'] = some [.upd 0x43] ∧
    assembleLine ['R', 'D', 'T', 'A', 'B', ' ', '\'', 'C', '\''] = none ∧
    assembleLine ['U', 'P', 'D', ' ', '2', '5', '6'] = none := by decide

/-- R61, R62: `CKSUM "AB"` is `INIT ; UPD 0x41 ; UPD 0x42 ; RDCRC`, and `CKSUM` alone is `INIT ; RDCRC`. -/
theorem test_assemble_cksum :
    assembleLine ['C', 'K', 'S', 'U', 'M', ' ', '"', 'A', 'B', '"'] = some [.init, .upd 0x41, .upd 0x42, .rdcrc] ∧
    assembleLine ['C', 'K', 'S', 'U', 'M', ' ', '1', ',', ' ', '2'] = some [.init, .upd 1, .upd 2, .rdcrc] ∧
    assembleLine ['C', 'K', 'S', 'U', 'M'] = some [.init, .rdcrc] := by decide

/-- Entry 10 (the model's choice): the first double quote ends a text, and what follows must be a comment or nothing. -/
theorem test_assemble_textQuote :
    assembleLine ['C', 'K', 'S', 'U', 'M', ' ', '"', 'A', '"', 'B', '"'] = none ∧
    assembleLine ['C', 'K', 'S', 'U', 'M', ' ', '"', 'A'] = none ∧
    assembleLine ['C', 'K', 'S', 'U', 'M', ' ', '\'', '"', '\''] = some [.init, .upd 0x22, .rdcrc] ∧
    assembleLine ['U', 'P', 'D', ' ', '\'', '\'', '\''] = some [.upd 0x27] := by decide

/-! ### Pure functions -/

/-- D-BT-1. -/
theorem test_bitStep : bitStep 0x0003 = 0x8409 ∧ bitStep 0x8000 = 0x4000 ∧ bitStep 0x8001 = 0xC408 ∧
    bitStep 0xFFFF = 0xFBF7 ∧ bitStep 0x00FF = 0x8477 := by decide

/-- V6: the whole table. -/
theorem test_buildTable : buildTable =
  ([0x0000, 0x1189, 0x2312, 0x329B, 0x4624, 0x57AD, 0x6536, 0x74BF] ++
   [0x8C48, 0x9DC1, 0xAF5A, 0xBED3, 0xCA6C, 0xDBE5, 0xE97E, 0xF8F7] ++
   [0x1081, 0x0108, 0x3393, 0x221A, 0x56A5, 0x472C, 0x75B7, 0x643E] ++
   [0x9CC9, 0x8D40, 0xBFDB, 0xAE52, 0xDAED, 0xCB64, 0xF9FF, 0xE876] ++
   [0x2102, 0x308B, 0x0210, 0x1399, 0x6726, 0x76AF, 0x4434, 0x55BD] ++
   [0xAD4A, 0xBCC3, 0x8E58, 0x9FD1, 0xEB6E, 0xFAE7, 0xC87C, 0xD9F5] ++
   [0x3183, 0x200A, 0x1291, 0x0318, 0x77A7, 0x662E, 0x54B5, 0x453C] ++
   [0xBDCB, 0xAC42, 0x9ED9, 0x8F50, 0xFBEF, 0xEA66, 0xD8FD, 0xC974] ++
   [0x4204, 0x538D, 0x6116, 0x709F, 0x0420, 0x15A9, 0x2732, 0x36BB] ++
   [0xCE4C, 0xDFC5, 0xED5E, 0xFCD7, 0x8868, 0x99E1, 0xAB7A, 0xBAF3] ++
   [0x5285, 0x430C, 0x7197, 0x601E, 0x14A1, 0x0528, 0x37B3, 0x263A] ++
   [0xDECD, 0xCF44, 0xFDDF, 0xEC56, 0x98E9, 0x8960, 0xBBFB, 0xAA72] ++
   [0x6306, 0x728F, 0x4014, 0x519D, 0x2522, 0x34AB, 0x0630, 0x17B9] ++
   [0xEF4E, 0xFEC7, 0xCC5C, 0xDDD5, 0xA96A, 0xB8E3, 0x8A78, 0x9BF1] ++
   [0x7387, 0x620E, 0x5095, 0x411C, 0x35A3, 0x242A, 0x16B1, 0x0738] ++
   [0xFFCF, 0xEE46, 0xDCDD, 0xCD54, 0xB9EB, 0xA862, 0x9AF9, 0x8B70] ++
   [0x8408, 0x9581, 0xA71A, 0xB693, 0xC22C, 0xD3A5, 0xE13E, 0xF0B7] ++
   [0x0840, 0x19C9, 0x2B52, 0x3ADB, 0x4E64, 0x5FED, 0x6D76, 0x7CFF] ++
   [0x9489, 0x8500, 0xB79B, 0xA612, 0xD2AD, 0xC324, 0xF1BF, 0xE036] ++
   [0x18C1, 0x0948, 0x3BD3, 0x2A5A, 0x5EE5, 0x4F6C, 0x7DF7, 0x6C7E] ++
   [0xA50A, 0xB483, 0x8618, 0x9791, 0xE32E, 0xF2A7, 0xC03C, 0xD1B5] ++
   [0x2942, 0x38CB, 0x0A50, 0x1BD9, 0x6F66, 0x7EEF, 0x4C74, 0x5DFD] ++
   [0xB58B, 0xA402, 0x9699, 0x8710, 0xF3AF, 0xE226, 0xD0BD, 0xC134] ++
   [0x39C3, 0x284A, 0x1AD1, 0x0B58, 0x7FE7, 0x6E6E, 0x5CF5, 0x4D7C] ++
   [0xC60C, 0xD785, 0xE51E, 0xF497, 0x8028, 0x91A1, 0xA33A, 0xB2B3] ++
   [0x4A44, 0x5BCD, 0x6956, 0x78DF, 0x0C60, 0x1DE9, 0x2F72, 0x3EFB] ++
   [0xD68D, 0xC704, 0xF59F, 0xE416, 0x90A9, 0x8120, 0xB3BB, 0xA232] ++
   [0x5AC5, 0x4B4C, 0x79D7, 0x685E, 0x1CE1, 0x0D68, 0x3FF3, 0x2E7A] ++
   [0xE70E, 0xF687, 0xC41C, 0xD595, 0xA12A, 0xB0A3, 0x8238, 0x93B1] ++
   [0x6B46, 0x7ACF, 0x4854, 0x59DD, 0x2D62, 0x3CEB, 0x0E70, 0x1FF9] ++
   [0xF78F, 0xE606, 0xD49D, 0xC514, 0xB1AB, 0xA022, 0x92B9, 0x8330] ++
   [0x7BC7, 0x6A4E, 0x58D5, 0x495C, 0x3DE3, 0x2C6A, 0x1EF1, 0x0F78] : List Word) := by
  decide +kernel

/-- D-CK-1. -/
theorem test_crcStep : crcStep 0x709F 0x52 = 0x1D99 ∧ crcStep 0xFFFF 0x00 = 0x0F87 ∧ crcStep 0xFFFF 0xFF = 0x00FF ∧
    crcStep 0x1234 0x00 = 0x77B5 ∧ crcStep 0x8000 0x00 = 0x0080 := by decide

/-- V3, D-CK-5 and D-CK-9 (an embedded zero byte is data). -/
theorem test_checksum :
    checksum [0x43, 0x52, 0x43, 0x31, 0x36, 0x54, 0x45, 0x53, 0x54, 0x44, 0x41, 0x54, 0x41] = 0x3416 ∧
    checksum [0x31, 0x32, 0x33, 0x34, 0x35, 0x36, 0x37, 0x38, 0x39] = 0x2189 ∧
    checksum [0x43, 0x52, 0x43, 0x00, 0x31, 0x36] = 0xA5F3 := by decide

/-! ### Commands -/

/-- D-BT-5: `BUILD` keeps `CRC` and sets `BUILT`. -/
theorem test_build : crcOf (exec .build (unbuilt 0x3416)) = some 0x3416 ∧
    builtOf (exec .build (unbuilt 0x3416)) = some true := by decide

/-- D-CK-13: `INIT` clears `CRC` and does not build. -/
theorem test_init : crcOf (exec .init (unbuilt 0x3416)) = some 0x0000 ∧
    builtOf (exec .init (unbuilt 0x3416)) = some false := by decide

/-- R84 and D-CK-13: the first update after reset builds and updates. -/
theorem test_upd_first : crcOf (exec (.upd 0x43) (unbuilt 0x0000)) = some 0x709F ∧
    builtOf (exec (.upd 0x43) (unbuilt 0x0000)) = some true := by decide

/-- V3, step 1: both uses of `CRC` read the old value. -/
theorem test_upd_second : crcOf (exec (.upd 0x52) (built 0x709F)) = some 0x1D99 := by decide

/-- D-CK-13: `RDCRC` responds `CRC`, keeps it and does not build. -/
theorem test_rdcrc : responsesOf (exec .rdcrc (unbuilt 0x3416)) = some [0x3416] ∧
    crcOf (exec .rdcrc (unbuilt 0x3416)) = some 0x3416 ∧ builtOf (exec .rdcrc (unbuilt 0x3416)) = some false := by decide

/-- D-RD-5, D-RD-12: as the first command, with the table built and not built. -/
theorem test_rdtab : responsesOf (exec (.rdtab 0x80) (unbuilt 0)) = some [0x8408] ∧
    responsesOf (exec (.rdtab 0x80) (built 0)) = some [0x8408] := by decide

/-- D-RD-3, D-RD-10. -/
theorem test_rdtlo : responsesOf (exec (.rdtlo 0x01) (unbuilt 0)) = some [0x0089] ∧
    responsesOf (exec (.rdtlo 0x91) (built 0)) = some [0x0000] := by decide

/-- D-RD-8, D-RD-11. -/
theorem test_rdthi : responsesOf (exec (.rdthi 0xFF) (unbuilt 0)) = some [0x000F] ∧
    responsesOf (exec (.rdthi 0x68) (built 0)) = some [0x00EF] := by decide +kernel

/-- D-CK-3 and program P6: a placed word runs at the next step from reset; a reserved one is refused. -/
theorem test_step_placed : crcOf (step (State.reset.withFetchWord 16 0x0341)) = some 0x538D ∧
    refusalOf (step (State.reset.withFetchWord 16 0x0201)) = some (.reservedWord .argNotZero) ∧
    refusalOf (step State.reset) = some .runEnded := by decide

/-! ### Witnesses: states and operands that meet a statement's hypotheses together -/

theorem unbuilt_tableInvariant (c : Word) : TableInvariant (unbuilt c) := fun h => nomatch h

theorem built_tableInvariant (c : Word) : TableInvariant (built c) := fun _ i => read_builtMemory i

/-- StepKeepsInvariant, RebuildingEveryTimeIsSame: a state with a command to run. -/
theorem witness_stepKeepsInvariant :
    StateInv { unbuilt 0x709F with commands := [0x0352] } ∧
    ∃ t, step { unbuilt 0x709F with commands := [0x0352] } = .next t := by
  exact ⟨⟨by decide, unbuilt_tableInvariant 0, by decide⟩, _, rfl⟩

/-- BuiltTableNeverChanges, BuildResult (second clause). -/
theorem witness_builtTableNeverChanges :
    StateInv { built 0x709F with commands := [0x0100] } ∧ (built 0x709F).built = true ∧
    ∃ t, step { built 0x709F with commands := [0x0100] } = .next t := by
  exact ⟨⟨builtMemory_wf, built_tableInvariant 0x709F, by decide⟩, rfl, _, rfl⟩

/-- EveryCommandCompletes, UpdResult, ReadOutResults, ReadOutsAgree, CksumFromEveryState, BuildPlacementUnobservable,
TableDumpsInOrder, EnsureBuiltEffect: both kinds of state of the block. -/
theorem witness_tableInvariant : TableInvariant (unbuilt 0xFFFF) ∧ TableInvariant (built 0xFFFF) :=
  ⟨unbuilt_tableInvariant _, built_tableInvariant _⟩

/-- EnsureBuiltEffect (last clause), with a built and an unbuilt state for the first. -/
theorem witness_readsTable : readsTable (.upd 0) = true ∧ readsTable (.rdthi 0xFF) = true ∧ (built 0).built = true ∧
    (unbuilt 0).built = false := by decide

/-- FrameOfEveryCommand, BuiltFlagRule, PcAdvancesByOne, ResponsesOfEveryCommand, CrcWritersAndReaders: each command gives a
next state from a state of either kind. -/
theorem witness_execNext :
    ([.build, .init, .upd 0x00, .upd 0xFF, .rdcrc, .rdtab 0x00, .rdtab 0xFF, .rdtlo 0xFF, .rdthi 0xFF] : List Instr).all
      (fun i => (crcOf (exec i (unbuilt 0x0100))).isSome && (crcOf (exec i (built 0x0100))).isSome) = true := by
  decide +kernel

/-- BuildIsTheEntryLoop: a canonical memory that holds other values. -/
theorem witness_canonicalMemory : ({ unbuilt 0 with table := [(0, 0x1234), (255, 0xFFFF)] } : State).table.wf = true := by
  decide

/-- UpdReadsTheTable: a state no run reaches, whose one entry is not `TableEntry`. -/
theorem witness_updReadsTheTable :
    readTable ((0x0000 : Word).setWidth 8 ^^^ 0x43) (ensureBuilt { built 0 with table := [(0x43, 0x1234)] }) =
      some 0x1234 := by decide

/-- ReadOfNoValueFaults: a state no run reaches. -/
theorem witness_noValue : ({ built 0 with table := [] } : State).built = true ∧
    readTable 0xFF { built 0 with table := [] } = none := by decide

/-- StepRunsDecodedCommand, StepHasTwoOutcomes (first clause). -/
theorem witness_commandAtPc : ({ unbuilt 0 with commands := [0x0343] } : State).commands[0]? = some 0x0343 ∧
    decode 0x0343 = .command (.upd 0x43) := by decide

/-- StepRefusesReservedWord, StepHasTwoOutcomes (second clause). -/
theorem witness_reservedAtPc : ({ unbuilt 0 with commands := [0x0201] } : State).commands[0]? = some 0x0201 ∧
    decode 0x0201 = .reserved .argNotZero := by decide

/-- StepRefusesAtEndOfRun. -/
theorem witness_endOfRun : (unbuilt 0).commands.length ≤ (unbuilt 0).pc := by decide

/-- PlacedWordRunsNext, at the highest operand. -/
theorem witness_placedWord : decodeTableWord 16 0x07FF = some (.rdthi 0xFF) := by decide

/-- StepsRunTheCommandList: two commands in the middle of a list. -/
theorem witness_commandListInMemory :
    ({ unbuilt 0 with commands := [0x0100, 0x0200, 0x0341, 0x0400], pc := 1 } : State).commands =
      [0x0100] ++ [Instr.init, .upd 0x41].map encode ++ [0x0400] ∧ ([0x0100] : List Word).length = 1 := by decide

/-- RunOfCommandWordsEnds, and RunWithReservedWordRefused with program P6. -/
theorem witness_runs : (∀ w ∈ ([0x0200, 0x0341, 0x0400] : List Word), wellFormedWord w = true) ∧
    ∃ w ∈ ([0x0200, 0x0341, 0x0201, 0x0400] : List Word), wellFormedWord w = false :=
  ⟨List.all_eq_true.mp (by decide), 0x0201, by simp, by decide⟩

/-- ResponsesCountReadCommands. -/
theorem witness_execListNext : ∃ t, execList [.init, .rdcrc] (unbuilt 0) = .next t := ⟨_, rfl⟩

/-- OneByteErrorsDetected (second and third clause). -/
theorem witness_entryOfResult : highByte (tableEntry 0xCD) = highByte (crcStep 0x709F 0x52) ∧ (0x00 : Byte) ≠ 0xFF := by
  decide

/-- CrcDependsOnUpdBytesOnly: other commands between two updates. -/
theorem witness_listWithoutInit : ∀ i ∈ [Instr.upd 0x41, .build, .rdcrc, .rdtab 0, .upd 0x42], i ≠ .init := by decide

/-- HiddenStateNeverShows: two states that differ in `BUILT` and the table only, at a command, at a reserved word and at the
end of the list. -/
theorem witness_sameVisible (words : List Word) :
    SameVisible { unbuilt 0x3416 with commands := words } { built 0x3416 with commands := words } :=
  ⟨rfl, rfl, rfl, rfl⟩

/-- BuildAtResetUnobservable: a run that ends and a run that is refused. -/
theorem witness_runFromReset : responsesOf (runFromReset false [0x0501]) = some [0x1189] ∧
    refusalOf (runFromReset false [0x0201]) = some (.reservedWord .argNotZero) := by decide

/-- DecodeEncodeAgree (second clause), RowsSelectCommands (second clause; third clause with the row of `INIT`). -/
theorem witness_commandWord : decode 0x0200 = .command .init ∧ (⟨"INIT", 0x0200, 0xFFFF⟩ : OpcodeRow) ∈ opcodeRows ∧
    OpcodeRow.selects ⟨"INIT", 0x0200, 0xFFFF⟩ 0x0200 = true := by decide

end Sys2Proof.Tests
end

section
/-! PROOFS. A word and its two fields, and which words decode to a command: the masks of the opcode table, read through the
fields. -/

namespace Sys2Proof

theorem opcField_append (opc arg : Byte) : opcField (opc ++ arg) = opc := by
  refine BitVec.eq_of_getLsbD_eq fun n hn => ?_
  have h : (opc ++ arg).getLsbD (8 + n) = opc.getLsbD n :=
    (BitVec.getLsbD_append (x := opc) (y := arg)).trans (by simp)
  rw [← h, opcField, BitVec.getLsbD_setWidth, BitVec.getLsbD_ushiftRight, decide_eq_true hn, Bool.true_and]

theorem argField_append (opc arg : Byte) : argField (opc ++ arg) = arg :=
  (BitVec.setWidth_append.trans (dif_pos (Nat.le_refl 8))).trans (BitVec.setWidth_eq arg)

/-- A word is its two fields (30_encoding rule R50). -/
theorem opcField_append_argField (w : Word) : opcField w ++ argField w = w := by
  refine BitVec.eq_of_getLsbD_eq fun n hn => ?_
  rw [BitVec.getLsbD_append]
  split
  · next h => simp [argField, h]
  · next h => simp [opcField, show n - 8 < 8 by omega, show 8 + (n - 8) = n by omega]

/-- A word is given by its two fields. -/
theorem eq_append_iff (w : Word) (opc arg : Byte) : w = opc ++ arg ↔ opcField w = opc ∧ argField w = arg := by
  constructor
  · rintro rfl
    exact ⟨opcField_append opc arg, argField_append opc arg⟩
  · rintro ⟨rfl, rfl⟩
    exact (opcField_append_argField w).symm

/-- The mask of a row with an operand keeps the opcode field. -/
theorem and_opcMask (w : Word) : w &&& 0xFF00 = opcField w ++ (0 : Byte) := by
  calc w &&& 0xFF00 = (opcField w ++ argField w) &&& ((0xFF : Byte) ++ (0x00 : Byte)) := by
        rw [opcField_append_argField]; rfl
    _ = (opcField w &&& BitVec.allOnes 8) ++ (argField w &&& 0) := BitVec.and_append
    _ = opcField w ++ (0 : Byte) := by
        rw [BitVec.and_allOnes, show argField w &&& 0 = 0 from BitVec.and_zero]

/-- A row without operand selects one word. -/
theorem selects_fullMask (m : String) (opc : Byte) (w : Word) :
    OpcodeRow.selects ⟨m, opc ++ (0 : Byte), 0xFFFF⟩ w = true ↔ opcField w = opc ∧ argField w = 0x00 := by
  rw [OpcodeRow.selects, beq_iff_eq, ← eq_append_iff]
  exact Eq.congr_left (BitVec.and_allOnes (x := w))

/-- A row with an operand selects the words of one opcode. -/
theorem selects_opcMask (m : String) (opc : Byte) (w : Word) :
    OpcodeRow.selects ⟨m, opc ++ (0 : Byte), 0xFF00⟩ w = true ↔ opcField w = opc := by
  rw [OpcodeRow.selects, beq_iff_eq, and_opcMask, eq_append_iff, opcField_append, argField_append]
  exact and_iff_left rfl

/-- The well-formed words, by their fields (30_encoding rule R53). -/
theorem wellFormedWord_iff_fields (w : Word) : wellFormedWord w = true ↔
    (opcField w = 0x01 ∧ argField w = 0x00) ∨ (opcField w = 0x02 ∧ argField w = 0x00) ∨ opcField w = 0x03 ∨
    (opcField w = 0x04 ∧ argField w = 0x00) ∨ opcField w = 0x05 ∨ opcField w = 0x06 ∨ opcField w = 0x07 := by
  rw [← selects_fullMask "BUILD", ← selects_fullMask "INIT", ← selects_opcMask "UPD", ← selects_fullMask "RDCRC",
    ← selects_opcMask "RDTAB", ← selects_opcMask "RDTLO", ← selects_opcMask "RDTHI"]
  rw [wellFormedWord, List.any_eq_true]
  simp [opcodeRows]

/-- The decoder gives a command for exactly the well-formed words (30_encoding rules R53, R54): its branches are the rows. -/
theorem wellFormedWord_iff_command (w : Word) : wellFormedWord w = true ↔ ∃ i, decode w = .command i := by
  rw [wellFormedWord_iff_fields, decode]
  split_ifs <;> simp_all

end Sys2Proof

/-! PROOFS. What every command does in a state of the block (`TableInvariant`): its one result, the invariant it keeps, and
the visible part of it. -/

namespace Sys2Proof.Machine

/-- After `EnsureBuilt()` every read gives `TableEntry(i)` (40_table_builder rule R73). -/
theorem readTable_ensureBuilt {s : State} (h : TableInvariant s) (i : Byte) :
    readTable i (ensureBuilt s) = some (tableEntry i) := by
  rcases ensureBuilt_cases s with ⟨hb, e⟩ | ⟨_, e⟩
  · rw [e]; exact h hb i
  · rw [e]; exact readTable_fillTable s i

/-- In a state of the block a table-reading command gets `TableEntry(i)`. -/
theorem withEntry_eq {s : State} (h : TableInvariant s) (i : Byte)
    (k : Word → State → Host.Outcome State Fault Refusal) :
    withEntry i s k = k (tableEntry i) (ensureBuilt s) := by
  simp [withEntry, readTable_ensureBuilt h]

/-- The state that a command leaves in a state of the block; tied to `exec` by `exec_eq`. -/
def execResult (s : State) : Instr → State
  | .build => advance (fillTable s)
  | .init => advance (setCrc 0x0000 s)
  | .upd b => advance (setCrc (crcStep s.crc b) (ensureBuilt s))
  | .rdcrc => advance (respond s.crc s)
  | .rdtab i => advance (respond (tableEntry i) (ensureBuilt s))
  | .rdtlo i => advance (respond (zext16 (lowByte (tableEntry i))) (ensureBuilt s))
  | .rdthi i => advance (respond (zext16 (highByte (tableEntry i))) (ensureBuilt s))

/-- Every command completes in a state of the block (60_exceptions rule R110), with the pure functions' values. -/
theorem exec_eq {s : State} (h : TableInvariant s) (i : Instr) : exec i s = .next (execResult s i) := by
  cases i with
  | build | init | rdcrc => rfl
  | upd b => rw [exec, execUpd, withEntry_eq h]; rfl
  | rdtab j => rw [exec, execRdtab, withEntry_eq h]; rfl
  | rdtlo j => rw [exec, execRdtlo, withEntry_eq h]; rfl
  | rdthi j => rw [exec, execRdthi, withEntry_eq h]; rfl

@[simp] theorem execResult_pc (s : State) (i : Instr) : (execResult s i).pc = s.pc + 1 := by
  cases i <;> simp [execResult]

@[simp] theorem execResult_commands (s : State) (i : Instr) : (execResult s i).commands = s.commands := by
  cases i <;> simp [execResult]

/-- Every command keeps the table invariant (10_state rule R18). -/
theorem tableInvariant_execResult {s : State} (h : TableInvariant s) (i : Instr) :
    TableInvariant (execResult s i) := by
  cases i with
  | build => exact fun _ => readTable_fillTable s
  | init | rdcrc => exact h
  | upd | rdtab | rdtlo | rdthi => exact fun _ => readTable_ensureBuilt h

/-- What a command does to the visible state depends on the visible state only (10_state rule R15). -/
theorem sameVisible_execResult {s t : State} (h : SameVisible s t) (i : Instr) :
    SameVisible (execResult s i) (execResult t i) := by
  obtain ⟨hcrc, hpc, hcommands, hresponses⟩ := h
  cases i <;> constructor <;> simp [execResult, *]

/-! PROOFS. Steps and runs from states of the block. -/

/-- A command word runs. -/
theorem step_of_command {s : State} {w : Word} {i : Instr} (hw : fetchCommand s = some w)
    (hd : decode w = .command i) : step s = exec i s := by
  simp [step, hw, hd]

/-- A reserved word is refused (30_encoding rule R58). -/
theorem step_of_reserved {s : State} {w : Word} {kind : ReservedKind} (hw : fetchCommand s = some w)
    (hd : decode w = .reserved kind) : step s = .refused (.reservedWord kind) := by
  simp [step, hw, hd]

/-- With no word left the step is refused. -/
theorem step_of_runEnded {s : State} (h : s.commands.length ≤ s.pc) : step s = .refused .runEnded := by
  simp [step, (fetchCommand_eq_none s).mpr h]

theorem SameVisible.fetchCommand_eq {s t : State} (h : SameVisible s t) : fetchCommand s = fetchCommand t := by
  rw [fetchCommand, fetchCommand, h.commands, h.pc]

/-- Every start of a run is a state of the block (70_reset_and_hazards rule R131). -/
theorem tableInvariant_start (b : Bool) (words : List Word) : TableInvariant (State.start b words) := by
  rintro (rfl : b = true)
  exact read_builtMemory

theorem sameVisible_start (b c : Bool) (words : List Word) :
    SameVisible (State.start b words) (State.start c words) :=
  ⟨rfl, rfl, rfl, rfl⟩

/-- In a state of the block whose list is well formed and has `n` words left, `n` steps complete and advance `pc` by `n`. -/
theorem run_of_wellFormed (n : Nat) {s : State} (hinv : TableInvariant s) (hn : s.pc + n ≤ s.commands.length)
    (hwf : ∀ w ∈ s.commands, wellFormedWord w = true) :
    ∃ t, Sys2Proof.core.run n s = .next t ∧ t.pc = s.pc + n ∧ t.commands = s.commands := by
  induction n generalizing s with
  | zero => exact ⟨s, rfl, rfl, rfl⟩
  | succ n ih =>
    have hlt : s.pc < s.commands.length := by omega
    have hw : fetchCommand s = some s.commands[s.pc] := List.getElem?_eq_getElem hlt
    obtain ⟨i, hi⟩ := (wellFormedWord_iff_command _).mp (hwf _ (List.getElem_mem hlt))
    have hstep : step s = .next (execResult s i) := (step_of_command hw hi).trans (exec_eq hinv i)
    obtain ⟨t, hrun, hpc, hcommands⟩ := ih (tableInvariant_execResult hinv i)
      (by simp; omega) (by simpa using hwf)
    refine ⟨t, (run_succ_next n hstep).trans hrun, ?_, ?_⟩
    · rw [hpc, execResult_pc]; omega
    · rw [hcommands, execResult_commands]

/-- Two outcomes that no host can tell apart: states of the block with the same visible part, or the same refusal. -/
inductive SameOutcome : Host.Outcome State Fault Refusal → Host.Outcome State Fault Refusal → Prop
  | next {s t : State} (hs : TableInvariant s) (ht : TableInvariant t) (h : SameVisible s t) :
      SameOutcome (.next s) (.next t)
  | refused (r : Refusal) : SameOutcome (.refused r) (.refused r)

/-- Steps of states of the block with the same visible part cannot be told apart (10_state rule R15). -/
theorem step_sameOutcome {s t : State} (hs : TableInvariant s) (ht : TableInvariant t) (h : SameVisible s t) :
    SameOutcome (step s) (step t) := by
  rcases step_cases s with ⟨hend, e⟩ | ⟨w, kind, hw, hd, e⟩ | ⟨w, i, hw, hd, e⟩
  · rw [e, step_of_runEnded (h.commands ▸ h.pc ▸ hend)]
    exact .refused _
  · rw [e, step_of_reserved (h.fetchCommand_eq ▸ hw) hd]
    exact .refused _
  · rw [e, step_of_command (h.fetchCommand_eq ▸ hw) hd, exec_eq hs, exec_eq ht]
    exact .next (tableInvariant_execResult hs i) (tableInvariant_execResult ht i) (sameVisible_execResult h i)

/-- Runs of any length from states of the block with the same visible part cannot be told apart. -/
theorem run_sameOutcome (n : Nat) {s t : State} (hs : TableInvariant s) (ht : TableInvariant t)
    (h : SameVisible s t) : SameOutcome (Sys2Proof.core.run n s) (Sys2Proof.core.run n t) := by
  induction n generalizing s t with
  | zero => exact .next hs ht h
  | succ n ih =>
    have hstep := step_sameOutcome hs ht h
    generalize es : step s = os at hstep
    generalize et : step t = ot at hstep
    cases hstep with
    | next hs' ht' h' => rw [run_succ_next n es, run_succ_next n et]; exact ih hs' ht' h'
    | refused r => rw [run_succ_refused n es, run_succ_refused n et]; exact .refused r

/-- What `SameOutcome` says of each outcome of the first run. -/
theorem SameOutcome.outcomes {o p : Host.Outcome State Fault Refusal} (h : SameOutcome o p) :
    (∀ s, o = .next s → ∃ t, p = .next t ∧ SameVisible s t) ∧
    (∀ r, o = .refused r → p = .refused r) ∧ (∀ r, o ≠ .fault r) := by
  cases h with
  | next _ _ h => exact ⟨by rintro s ⟨⟩; exact ⟨_, rfl, h⟩, nofun, nofun⟩
  | refused r => exact ⟨nofun, fun _ h => h, nofun⟩

end Sys2Proof.Machine

/-! PROOFS. The settled obligations of 00_scope. -/

namespace Sys2Proof.Machine

/-- Settles O14: from the start of a run every word of the list is a command, and each completes. -/
theorem runOfCommandWordsEnds : Obligations.RunOfCommandWordsEnds := by
  intro b words hwf
  obtain ⟨t, hrun, hpc, hcommands⟩ := run_of_wellFormed words.length (s := State.start b words)
    (tableInvariant_start b words) (Nat.le_of_eq (Nat.zero_add _)) hwf
  have hend : t.pc = words.length := hpc.trans (Nat.zero_add _)
  exact ⟨t, hrun, beq_iff_eq.mpr (hend.trans (congrArg List.length hcommands).symm), hend⟩

/-- Settles O50: the two starts have the same visible part, and no run tells such states apart. -/
theorem buildAtResetUnobservable : Obligations.BuildAtResetUnobservable := fun words =>
  (run_sameOutcome words.length (tableInvariant_start false words) (tableInvariant_start true words)
    (sameVisible_start false true words)).outcomes

/-- Settles O2: the two constants, bit by bit. -/
theorem polyIsReflected1021 : Obligations.PolyIsReflected1021 :=
  ⟨rfl, by decide⟩

end Sys2Proof.Machine
end

section
/-! PROOFS. What a completed command has done, in every state, reachable or not: one case per command, then the fields of
the state it leaves. -/

namespace Sys2Proof.Machine

/-- The command `i` completes in `s` with `t`: the commands that read the table use the entry they find there; tied to
`exec` by `exec_next_iff`. -/
inductive Completes (s : State) : Instr → State → Prop
  | build : Completes s .build (advance (fillTable s))
  | init : Completes s .init (advance (setCrc 0x0000 s))
  | upd {b : Byte} {v : Word} (hv : readTable (updIndex s.crc b) (ensureBuilt s) = some v) :
      Completes s (.upd b) (advance (setCrc (foldEntry s.crc v) (ensureBuilt s)))
  | rdcrc : Completes s .rdcrc (advance (respond s.crc s))
  | rdtab {j : Byte} {v : Word} (hv : readTable j (ensureBuilt s) = some v) :
      Completes s (.rdtab j) (advance (respond v (ensureBuilt s)))
  | rdtlo {j : Byte} {v : Word} (hv : readTable j (ensureBuilt s) = some v) :
      Completes s (.rdtlo j) (advance (respond (zext16 (lowByte v)) (ensureBuilt s)))
  | rdthi {j : Byte} {v : Word} (hv : readTable j (ensureBuilt s) = some v) :
      Completes s (.rdthi j) (advance (respond (zext16 (highByte v)) (ensureBuilt s)))

/-- Where a table-reading command goes on, it had an entry to go on with. -/
theorem withEntry_next {i : Byte} {s t : State} {k : Word → State → Host.Outcome State Fault Refusal}
    (h : withEntry i s k = .next t) :
    ∃ v, readTable i (ensureBuilt s) = some v ∧ k v (ensureBuilt s) = .next t := by
  rcases withEntry_cases i s k with ⟨v, hv, e⟩ | ⟨_, e⟩
  · exact ⟨v, hv, e ▸ h⟩
  · cases e.symm.trans h

/-- A table-reading command goes on with the entry it finds. -/
theorem withEntry_of_read {i : Byte} {s : State} {v : Word} (hv : readTable i (ensureBuilt s) = some v)
    (k : Word → State → Host.Outcome State Fault Refusal) : withEntry i s k = k v (ensureBuilt s) := by
  simp [withEntry, hv]

/-- Where a command gives a next state, it has completed with it. -/
theorem completes_of_exec {i : Instr} {s t : State} (h : exec i s = .next t) : Completes s i t := by
  cases i with
  | build => cases h; exact .build
  | init => cases h; exact .init
  | rdcrc => cases h; exact .rdcrc
  | upd b =>
    rw [exec, execUpd] at h
    obtain ⟨v, hv, ⟨⟩⟩ := withEntry_next h
    exact .upd hv
  | rdtab j =>
    rw [exec, execRdtab] at h
    obtain ⟨v, hv, ⟨⟩⟩ := withEntry_next h
    exact .rdtab hv
  | rdtlo j =>
    rw [exec, execRdtlo] at h
    obtain ⟨v, hv, ⟨⟩⟩ := withEntry_next h
    exact .rdtlo hv
  | rdthi j =>
    rw [exec, execRdthi] at h
    obtain ⟨v, hv, ⟨⟩⟩ := withEntry_next h
    exact .rdthi hv

/-- All that a command can do where it gives a next state. -/
theorem exec_next_iff {i : Instr} {s t : State} : exec i s = .next t ↔ Completes s i t := by
  refine ⟨completes_of_exec, fun h => ?_⟩
  cases h with
  | build | init | rdcrc => rfl
  | upd hv => rw [exec, execUpd, withEntry_of_read hv]
  | rdtab hv => rw [exec, execRdtab, withEntry_of_read hv]
  | rdtlo hv => rw [exec, execRdtlo, withEntry_of_read hv]
  | rdthi hv => rw [exec, execRdthi, withEntry_of_read hv]

/-- In a state of the block a completed command has left its one result. -/
theorem eq_execResult {i : Instr} {s t : State} (hs : TableInvariant s) (h : exec i s = .next t) :
    t = execResult s i := by
  cases (exec_eq hs i).symm.trans h; rfl

section
variable {s t : State} {i : Instr} (h : Completes s i t)
include h

theorem Completes.pc : t.pc = s.pc + 1 := by
  cases h <;> simp

theorem Completes.commands : t.commands = s.commands := by
  cases h <;> simp

theorem Completes.crc (hi : writesCrc i = false) : t.crc = s.crc := by
  cases h with
  | init | upd => cases hi
  | build | rdcrc | rdtab | rdtlo | rdthi => simp

theorem Completes.responses (hi : responds i = false) : t.responses = s.responses := by
  cases h with
  | build | init | upd => simp
  | rdcrc | rdtab | rdtlo | rdthi => cases hi

theorem Completes.built : t.built = (s.built || i == .build || readsTable i) := by
  cases h <;> simp [readsTable]

theorem Completes.table_of_readsTable (hi : readsTable i = true) : t.table = (ensureBuilt s).table := by
  cases h with
  | build | init | rdcrc => cases hi
  | upd | rdtab | rdtlo | rdthi => rfl

theorem Completes.table_of_not_readsTable (hi : readsTable i = false) (hb : i ≠ .build) : t.table = s.table := by
  cases h with
  | build => exact absurd rfl hb
  | init | rdcrc => rfl
  | upd | rdtab | rdtlo | rdthi => cases hi

/-- The table is written as a whole or not at all (10_state rule R19). -/
theorem Completes.table_cases : t.table = s.table ∨ t.table = builtMemory := by
  cases hi : readsTable i with
  | true =>
    rw [h.table_of_readsTable hi]
    rcases ensureBuilt_cases s with ⟨_, e⟩ | ⟨_, e⟩
    · exact .inl (congrArg State.table e)
    · exact .inr (congrArg State.table e)
  | false =>
    by_cases hb : i = .build
    · subst hb; cases h; exact .inr rfl
    · exact .inl (h.table_of_not_readsTable hi hb)

end

theorem ensureBuilt_withPc (s : State) (k : Nat) : ensureBuilt { s with pc := k } = { ensureBuilt s with pc := k } := by
  rw [ensureBuilt, ensureBuilt]
  split <;> rfl

theorem ensureBuilt_withCrc (s : State) (c : Word) :
    ensureBuilt { s with crc := c } = { ensureBuilt s with crc := c } := by
  rw [ensureBuilt, ensureBuilt]
  split <;> rfl

/-- No command reads `pc` (10_state rule R13). -/
theorem Completes.withPc {s t : State} {i : Instr} (h : Completes s i t) (k : Nat) :
    Completes { s with pc := k } i { t with pc := k + 1 } := by
  have e := ensureBuilt_withPc s k
  have hread (j : Byte) : readTable j (ensureBuilt { s with pc := k }) = readTable j (ensureBuilt s) :=
    readTable_congr (congrArg State.table e) j
  cases h with
  | build => exact .build
  | init => exact .init
  | rdcrc => exact .rdcrc
  | upd hv =>
    have h' := Completes.upd ((hread _).trans hv)
    rwa [e] at h'
  | rdtab hv =>
    have h' := Completes.rdtab ((hread _).trans hv)
    rwa [e] at h'
  | rdtlo hv =>
    have h' := Completes.rdtlo ((hread _).trans hv)
    rwa [e] at h'
  | rdthi hv =>
    have h' := Completes.rdthi ((hread _).trans hv)
    rwa [e] at h'

/-- The commands that neither write nor respond `CRC` do the same whatever it holds (10_state rule R11). -/
theorem execResult_withCrc (s : State) (c : Word) {i : Instr} (hi : writesCrc i = false) (hr : i ≠ .rdcrc) :
    execResult { s with crc := c } i = { execResult s i with crc := c } := by
  cases i with
  | build => rfl
  | init | upd => cases hi
  | rdcrc => exact absurd rfl hr
  | rdtab | rdtlo | rdthi => rw [execResult, ensureBuilt_withCrc]; rfl

end Sys2Proof.Machine

/-! PROOFS. Command lists in states of the block: the one state they end in, its `CRC` and its responses. -/

namespace Sys2Proof.Machine

/-- Every command list completes in a state of the block. -/
theorem execList_eq {s : State} (h : TableInvariant s) (cs : List Instr) :
    execList cs s = .next (cs.foldl execResult s) := by
  induction cs generalizing s with
  | nil => rfl
  | cons i cs ih => rw [execList_cons cs (exec_eq h i), ih (tableInvariant_execResult h i), List.foldl_cons]

/-- A command other than `INIT` folds into `CRC` the bytes it gives the checksum: one or none. -/
theorem crcFold_execResult (s : State) {i : Instr} (hi : i ≠ .init) (cs : List Instr) :
    crcFold (execResult s i).crc (updBytes cs) = crcFold s.crc (updBytes (i :: cs)) := by
  cases i with
  | init => exact absurd rfl hi
  | upd b => rfl
  | build | rdcrc | rdtab | rdtlo | rdthi => simp [execResult, updBytes]

/-- A list without `INIT` folds the operands of its `UPD`s into `CRC` (10_state rule R12). -/
theorem crc_foldl_execResult (s : State) {cs : List Instr} (hcs : ∀ i ∈ cs, i ≠ .init) :
    (cs.foldl execResult s).crc = crcFold s.crc (updBytes cs) := by
  induction cs generalizing s with
  | nil => rfl
  | cons i cs ih =>
    obtain ⟨hi, hrest⟩ := List.forall_mem_cons.mp hcs
    rw [List.foldl_cons, ih _ hrest, crcFold_execResult s hi]

/-- Two states with the same `CRC` and the same responses, whatever the rest. -/
structure SameShown (s t : State) : Prop where
  responses : s.responses = t.responses
  crc : s.crc = t.crc

/-- A command's response and the `CRC` it leaves depend on `CRC` only. -/
theorem sameShown_execResult {s t : State} (h : SameShown s t) (i : Instr) :
    SameShown (execResult s i) (execResult t i) := by
  obtain ⟨hresponses, hcrc⟩ := h
  cases i <;> constructor <;> simp [execResult, *]

/-- A list and the list without its `BUILD`s show the same (10_state rule R15). -/
theorem sameShown_foldl_filter_build {s t : State} (h : SameShown s t) (cs : List Instr) :
    SameShown (cs.foldl execResult s) ((cs.filter (· != .build)).foldl execResult t) := by
  induction cs generalizing s t with
  | nil => exact h
  | cons i cs ih =>
    by_cases hi : i = .build
    · have hbuild : SameShown (execResult s .build) t := ⟨h.responses, h.crc⟩
      subst hi
      simpa using ih hbuild
    · simpa [hi] using ih (sameShown_execResult h i)

end Sys2Proof.Machine

/-! PROOFS. The settled obligations of 10_state. -/

namespace Sys2Proof.Machine

/-- Settles O19: the step runs a command, which keeps rule R18 and leaves the table or writes the built one; its word stood
before the end of the list. -/
theorem stepKeepsInvariant : Obligations.StepKeepsInvariant := by
  intro s t hs hstep
  obtain ⟨w, i, hw, -, hexec⟩ := step_next hstep
  have hc : Completes s i t := exec_next_iff.mp hexec
  refine ⟨?_, ?_, ?_⟩
  · rcases hc.table_cases with e | e
    · exact e ▸ hs.wf
    · exact e ▸ builtMemory_wf
  · exact eq_execResult hs.table hexec ▸ tableInvariant_execResult hs.table i
  · rw [hc.pc, hc.commands]
    exact fetchCommand_eq_some_lt hw

/-- Settles O49: steps of such states cannot be told apart. -/
theorem hiddenStateNeverShows : Obligations.HiddenStateNeverShows :=
  fun _ _ hs ht h => (step_sameOutcome hs ht h).outcomes

/-- Settles O20: a command leaves the table or writes the built one, which a canonical table with `BUILT = 1` already is. -/
theorem builtTableNeverChanges : Obligations.BuiltTableNeverChanges := by
  intro s t hs hb hstep
  obtain ⟨w, i, -, -, hexec⟩ := step_next hstep
  have hc : Completes s i t := exec_next_iff.mp hexec
  refine ⟨?_, by simp [hc.built, hb]⟩
  rcases hc.table_cases with e | e
  · exact e
  · exact e.trans (eq_builtMemory hs.wf (hs.table hb)).symm

/-- Settles O21, by the commands. -/
theorem builtFlagRule : Obligations.BuiltFlagRule :=
  fun _ _ _ h => (exec_next_iff.mp h).built

/-- Settles O22, by the commands: `pc` enters none of their results. -/
theorem pcAdvancesByOne : Obligations.PcAdvancesByOne := by
  intro i s t h
  have hc : Completes s i t := exec_next_iff.mp h
  exact ⟨hc.pc, hc.commands, fun k => exec_next_iff.mpr (hc.withPc k)⟩

/-- Settles O23, one clause at a time from what each field holds after a command. -/
theorem frameOfEveryCommand : Obligations.FrameOfEveryCommand := by
  intro i s t h
  have hc : Completes s i t := exec_next_iff.mp h
  refine ⟨?crc, ?noTable, ?readsBuilt, ?readsUnbuilt, ?build, ?responses, hc.commands⟩
  case crc =>
    rintro ⟨hinit, hupd⟩
    refine hc.crc ?_
    cases i with
    | init => exact absurd rfl hinit
    | upd b => exact absurd rfl (hupd b)
    | build | rdcrc | rdtab | rdtlo | rdthi => rfl
  case noTable =>
    rintro (rfl | rfl) <;> cases hc <;> exact ⟨rfl, rfl, fun _ => rfl⟩
  case readsBuilt =>
    intro hi hb
    have htable : t.table = s.table := by
      rw [hc.table_of_readsTable hi, ensureBuilt, if_pos hb]
    exact ⟨by simp [hc.built, hb], htable, readTable_congr htable⟩
  case readsUnbuilt =>
    intro hi hb
    have hinv : TableInvariant s := fun hb' => by simp [hb] at hb'
    refine ⟨by simp [hc.built, hi], fun j => ?_⟩
    rw [readTable_congr (hc.table_of_readsTable hi), readTable_ensureBuilt hinv]
  case build =>
    rintro rfl
    cases hc
    exact ⟨rfl, readTable_fillTable s⟩
  case responses =>
    intro hi
    refine hc.responses ?_
    rcases hi with rfl | rfl | ⟨b, rfl⟩ <;> rfl

/-- Settles O24, from the one result of each command. -/
theorem crcWritersAndReaders : Obligations.CrcWritersAndReaders := by
  refine ⟨fun _ => rfl, fun i s t hs h => ?_⟩
  have ht := eq_execResult hs h
  refine ⟨(exec_next_iff.mp h).crc, ?init, ?upd, ?rdcrc, ?others⟩
  case init => rintro rfl; rw [ht]; rfl
  case upd => rintro b rfl; rw [ht]; rfl
  case rdcrc => rintro rfl; rw [ht]; rfl
  case others =>
    intro hi c
    have hcrc : writesCrc i = false ∧ i ≠ .rdcrc := by
      rcases hi with rfl | ⟨j, rfl | rfl | rfl⟩ <;> exact ⟨rfl, nofun⟩
    obtain ⟨hwrites, hreads⟩ := hcrc
    have hs' : TableInvariant { s with crc := c } := hs
    rw [exec_eq hs', execResult_withCrc s c hwrites hreads, ht]

/-- Settles O48: `INIT` and reset leave `CRC` at 0, and the list folds the bytes of its `UPD`s into it. -/
theorem crcDependsOnUpdBytesOnly : Obligations.CrcDependsOnUpdBytesOnly :=
  ⟨fun s _ hs hcs => ⟨_, execList_eq hs _, crc_foldl_execResult (execResult s .init) hcs⟩,
   fun b words _ hcs => ⟨_, execList_eq (tableInvariant_start b words) _, crc_foldl_execResult _ hcs⟩⟩

/-- Settles O51: both lists complete, and a `BUILD` shows nothing. -/
theorem buildPlacementUnobservable : Obligations.BuildPlacementUnobservable := by
  intro s cs hs
  have h := sameShown_foldl_filter_build (s := s) (t := s) ⟨rfl, rfl⟩ cs
  exact ⟨_, _, execList_eq hs _, execList_eq hs _, h.responses, h.crc⟩

/-- Settles O18: the table of a start is empty or the built one. -/
theorem startMeetsInvariant : Obligations.StartMeetsInvariant := by
  have hstart (b : Bool) (words : List Word) : StateInv (State.start b words) := by
    refine ⟨?_, tableInvariant_start b words, Nat.zero_le _⟩
    cases b
    · rfl
    · exact builtMemory_wf
  exact ⟨hstart, hstart Config.buildAtReset []⟩

end Sys2Proof.Machine
end

section
/-! PROOFS. The encoder read through the two fields of a word, and the decoder on what it gives (30_encoding rule R55). -/

namespace Sys2Proof

/-- The number of a word with the given fields. -/
theorem toNat_fields (opc arg : Byte) : (opc ++ arg).toNat = 2 ^ 8 * opc.toNat + arg.toNat := by
  rw [BitVec.toNat_append, ← Nat.shiftLeft_add_eq_or_of_lt arg.isLt, Nat.shiftLeft_eq, Nat.mul_comm]

/-- The encoder's sum: an operand added to a word whose low byte is 0 never carries out of that byte. -/
theorem append_zero_add (opc arg : Byte) : (opc ++ (0 : Byte)) + arg.setWidth 16 = opc ++ arg := by
  refine BitVec.eq_of_toNat_eq ?_
  have hopc := opc.isLt
  have harg := arg.isLt
  have hzero : (0 : Byte).toNat = 0 := rfl
  rw [BitVec.toNat_add, toNat_fields, toNat_fields, BitVec.toNat_setWidth, hzero]
  omega

theorem encode_upd (b : Byte) : encode (.upd b) = (0x03 : Byte) ++ b := append_zero_add 0x03 b

theorem encode_rdtab (i : Byte) : encode (.rdtab i) = (0x05 : Byte) ++ i := append_zero_add 0x05 i

theorem encode_rdtlo (i : Byte) : encode (.rdtlo i) = (0x06 : Byte) ++ i := append_zero_add 0x06 i

theorem encode_rdthi (i : Byte) : encode (.rdthi i) = (0x07 : Byte) ++ i := append_zero_add 0x07 i

/-- The decoder gives back the command that was encoded. -/
theorem decode_encode (i : Instr) : decode (encode i) = .command i := by
  cases i with
  | build | init | rdcrc => rfl
  | upd b => simp [encode_upd, decode, opcField_append, argField_append]
  | rdtab j => simp [encode_rdtab, decode, opcField_append, argField_append]
  | rdtlo j => simp [encode_rdtlo, decode, opcField_append, argField_append]
  | rdthi j => simp [encode_rdthi, decode, opcField_append, argField_append]

end Sys2Proof

/-! PROOFS. Steps over encoded commands, and the settled obligation of 20_memory. -/

namespace Sys2Proof.Machine

/-- The word after `before` is the one fetched when `pc` stands there. -/
theorem fetchCommand_of_commands_eq {s : State} {before rest : List Word} {w : Word}
    (hcommands : s.commands = before ++ w :: rest) (hpc : s.pc = before.length) : fetchCommand s = some w := by
  simp [fetchCommand, hcommands, hpc]

/-- A command that faults ends the list. -/
theorem execList_cons_fault {i : Instr} {s : State} {r : Fault} (rest : List Instr) (h : exec i s = .fault r) :
    execList (i :: rest) s = .fault r := by
  simp [execList, h]

/-- A command that is refused ends the list. -/
theorem execList_cons_refused {i : Instr} {s : State} {r : Refusal} (rest : List Instr) (h : exec i s = .refused r) :
    execList (i :: rest) s = .refused r := by
  simp [execList, h]

/-- A step that runs a command goes on, or stops, as that command does at the head of a list. -/
theorem run_succ_eq_execList_cons {s : State} {i : Instr} {rest : List Instr} {k : Nat} (hstep : step s = exec i s)
    (hrest : ∀ t, exec i s = .next t → Sys2Proof.core.run k t = execList rest t) :
    Sys2Proof.core.run (k + 1) s = execList (i :: rest) s := by
  cases hi : exec i s with
  | next t => exact (run_succ_next k (hstep.trans hi)).trans ((hrest t hi).trans (execList_cons rest hi).symm)
  | fault r => exact (run_succ_fault k (hstep.trans hi)).trans (execList_cons_fault rest hi).symm
  | refused r => exact (run_succ_refused k (hstep.trans hi)).trans (execList_cons_refused rest hi).symm

/-- Settles O13, by induction on the commands: each command that completes leaves the list and moves its own word into the
part before `pc`. -/
theorem stepsRunTheCommandList : Obligations.StepsRunTheCommandList := by
  intro cs before after s hcommands hpc
  induction cs generalizing before s with
  | nil => rfl
  | cons i cs ih =>
    have hfetch : fetchCommand s = some (encode i) :=
      fetchCommand_of_commands_eq (rest := cs.map encode ++ after) (by simpa using hcommands) hpc
    refine run_succ_eq_execList_cons (step_of_command hfetch (decode_encode i)) fun t ht => ?_
    have hc : Completes s i t := exec_next_iff.mp ht
    refine ih (before ++ [encode i]) t ?_ ?_
    · simp [hc.commands, hcommands]
    · simp [hc.pc, hpc]

end Sys2Proof.Machine
end

section
/-! PROOFS. The decoder against the encoder, the opcode table and the reserved words of 30_encoding rule R57, and the number
of command words. -/

namespace Sys2Proof

/-- Every word that decodes to a command is that command's word (30_encoding rule R55): its fields are the encoder's. -/
theorem encode_of_decode {w : Word} {i : Instr} (h : decode w = .command i) : encode i = w := by
  rw [decode] at h
  split_ifs at h with hbuild hinit hupd hrdcrc hrdtab hrdtlo hrdthi <;> cases h
  · exact ((eq_append_iff w 0x01 0x00).mpr hbuild).symm
  · exact ((eq_append_iff w 0x02 0x00).mpr hinit).symm
  · rw [encode_upd, ← hupd, opcField_append_argField]
  · exact ((eq_append_iff w 0x04 0x00).mpr hrdcrc).symm
  · rw [encode_rdtab, ← hrdtab, opcField_append_argField]
  · rw [encode_rdtlo, ← hrdtlo, opcField_append_argField]
  · rw [encode_rdthi, ← hrdthi, opcField_append_argField]

/-- The reserved words are the ill-formed ones. -/
theorem wellFormedWord_eq_false_iff (w : Word) :
    wellFormedWord w = false ↔ ∃ kind, decode w = .reserved kind := by
  rw [← Bool.not_eq_true, wellFormedWord_iff_command]
  cases decode w <;> simp

/-- The two fields of a word as numbers. -/
theorem toNat_eq_fields (w : Word) : w.toNat = 2 ^ 8 * (opcField w).toNat + (argField w).toNat := by
  rw [← toNat_fields, opcField_append_argField]

theorem opcField_toNat (w : Word) : (opcField w).toNat = w.toNat / 256 := by
  rw [toNat_eq_fields w]
  omega

theorem argField_toNat (w : Word) : (argField w).toNat = w.toNat % 256 := by
  rw [toNat_eq_fields w]
  omega

/-- The well-formed words, by their number (30_encoding rule R53). -/
theorem wellFormedWord_iff_toNat (w : Word) : wellFormedWord w = true ↔
    (w.toNat / 256 = 1 ∧ w.toNat % 256 = 0) ∨ (w.toNat / 256 = 2 ∧ w.toNat % 256 = 0) ∨ w.toNat / 256 = 3 ∨
    (w.toNat / 256 = 4 ∧ w.toNat % 256 = 0) ∨ w.toNat / 256 = 5 ∨ w.toNat / 256 = 6 ∨ w.toNat / 256 = 7 := by
  rw [wellFormedWord_iff_fields, ← opcField_toNat, ← argField_toNat]
  simp only [← BitVec.toNat_inj]
  rfl

/-- Among the rows of the opcode table a command's word selects that command's row only (30_encoding rule R53). -/
theorem filter_selects_encode (i : Instr) : opcodeRows.filter (·.selects (encode i)) = [i.row] := by
  cases i with
  | build => exact Laws.OneRow.build
  | init => exact Laws.OneRow.init
  | upd b => exact Laws.OneRow.upd b
  | rdcrc => exact Laws.OneRow.rdcrc
  | rdtab j => exact Laws.OneRow.rdtab j
  | rdtlo j => exact Laws.OneRow.rdtlo j
  | rdthi j => exact Laws.OneRow.rdthi j

theorem mem_opcodeRows_and_selects_encode_iff (r : OpcodeRow) (i : Instr) :
    r ∈ opcodeRows ∧ r.selects (encode i) = true ↔ r = i.row := by
  rw [← List.mem_singleton (b := i.row), ← filter_selects_encode, List.mem_filter]

/-- A word that selects a row of the opcode table decodes to a command of that row. -/
theorem row_of_selects {w : Word} {r : OpcodeRow} (hr : r ∈ opcodeRows) (hsel : r.selects w = true) :
    ∃ i, decode w = .command i ∧ r = i.row := by
  obtain ⟨i, hi⟩ := (wellFormedWord_iff_command w).mp (List.any_eq_true.mpr ⟨r, hr, hsel⟩)
  rw [← encode_of_decode hi] at hsel
  exact ⟨i, hi, (mem_opcodeRows_and_selects_encode_iff r i).mp ⟨hr, hsel⟩⟩

/-- The opcode table numbers a word as it stands. -/
theorem tableWord_toNat (w : Word) : tableWord 16 w.toNat = w := by
  rw [tableWord, Nat.mod_eq_of_lt w.isLt, BitVec.ofNat_toNat, BitVec.setWidth_eq]

theorem isSome_decodeTableWord_iff (w : Word) :
    (decodeTableWord 16 w.toNat).isSome = true ↔ wellFormedWord w = true := by
  rw [decodeTableWord, tableWord_toNat, wellFormedWord_iff_command]
  cases decode w <;> simp

/-- The fields of the command words: the opcodes without operand with a zero `arg`, the others with any
(30_encoding rule R53); tied to the decoder by `mem_commandFields_iff`. -/
def commandFields : Finset (Byte × Byte) :=
  {0x01, 0x02, 0x04} ×ˢ {0x00} ∪ {0x03, 0x05, 0x06, 0x07} ×ˢ Finset.univ

theorem mem_commandFields_iff (w : Word) :
    (opcField w, argField w) ∈ commandFields ↔ wellFormedWord w = true := by
  rw [wellFormedWord_iff_fields]
  simp only [commandFields, Finset.mem_union, Finset.mem_product, Finset.mem_insert, Finset.mem_singleton,
    Finset.mem_univ]
  tauto

/-- Three words without operand, four opcodes with 256 operands each. -/
theorem card_commandFields : commandFields.card = 3 * 1 + 4 * 256 := by
  have hopc : Disjoint ({0x01, 0x02, 0x04} : Finset Byte) {0x03, 0x05, 0x06, 0x07} := by decide
  rw [commandFields, Finset.card_union_of_disjoint (Finset.disjoint_product.mpr (.inl hopc)), Finset.card_product,
    Finset.card_product, Finset.card_univ, ← FinEnum.card_eq_fintypeCard, FinEnum.card_bitVec]
  rfl

/-- A word and its fields correspond one to one, so there are as many command words as fields of them. -/
theorem card_commandWords :
    (Finset.univ.filter fun w : Word => (decodeTableWord 16 w.toNat).isSome = true).card = 1027 := by
  refine Eq.trans ?_ card_commandFields
  refine Finset.card_nbij' (fun w => (opcField w, argField w)) (fun p => p.1 ++ p.2) ?_ ?_ ?_ ?_
  · intro w hw
    simpa [isSome_decodeTableWord_iff, mem_commandFields_iff] using hw
  · intro p hp
    simpa [isSome_decodeTableWord_iff, ← mem_commandFields_iff, opcField_append, argField_append] using hp
  · exact fun w _ => opcField_append_argField w
  · exact fun p _ => Prod.ext (opcField_append p.1 p.2) (argField_append p.1 p.2)

/-- The words without a property are all 65536 but those with it. -/
theorem card_filter_not_of_card_filter (p : Word → Prop) [DecidablePred p] {n : Nat}
    (h : (Finset.univ.filter p).card = n) : (Finset.univ.filter fun w => ¬p w).card = 65536 - n := by
  have hsum := Finset.card_filter_add_card_filter_not (s := Finset.univ) p
  rw [h, Finset.card_univ, ← FinEnum.card_eq_fintypeCard, FinEnum.card_bitVec] at hsum
  exact Nat.eq_sub_of_add_eq' hsum

end Sys2Proof

/-! PROOFS. The settled obligations of 30_encoding about words. -/

namespace Sys2Proof.Machine

/-- Settles O3: a word is its two fields, and the encoder and the decoder agree on both. -/
theorem decodeEncodeAgree : Obligations.DecodeEncodeAgree :=
  ⟨decode_encode, fun _ _ => encode_of_decode⟩

/-- Settles O4: the reserved words are all words but the command words. -/
theorem commandWordCount : Obligations.CommandWordCount :=
  ⟨card_commandWords, card_filter_not_of_card_filter _ card_commandWords⟩

/-- Settles O5: the words whose fields select no row of the opcode table. -/
theorem reservedWordsExactly : Obligations.ReservedWordsExactly := by
  refine ⟨fun w => ?_, ⟨.opcZero, rfl⟩, ⟨.opcUnused, rfl⟩⟩
  rw [← wellFormedWord_eq_false_iff, ← Bool.not_eq_true, wellFormedWord_iff_toNat]
  omega

/-- Settles O6: a word that selects a row decodes to a command, whose word selects no other row. -/
theorem rowsSelectCommands : Obligations.RowsSelectCommands := by
  refine ⟨wellFormedWord_iff_command, fun w i hi => ?_, fun w r hr q hq hrw hqw => ?_⟩
  · obtain ⟨-, hsel⟩ := (mem_opcodeRows_and_selects_encode_iff i.row i).mpr rfl
    rwa [encode_of_decode hi] at hsel
  · obtain ⟨i, hi, rfl⟩ := row_of_selects hr hrw
    obtain ⟨j, hj, rfl⟩ := row_of_selects hq hqw
    cases hi.symm.trans hj
    rfl

/-- Settles O1: the decoder, run on the fifteen words. -/
theorem decodesSpecWords : Obligations.DecodesSpecWords := by
  unfold Obligations.DecodesSpecWords
  decide

end Sys2Proof.Machine
end

section
/-! PROOFS. The text form: a rendered command is read back (30_encoding rules R60, R61). -/

namespace Sys2Proof.Machine

/-- A digit is read back, by the sixteen digits. -/
theorem digit_hexDigit : ∀ n : Fin 16, digit 16 (hexDigit n) = some n.val := by decide

theorem number_cons_of_digit {base d : Nat} {c : Char} (h : digit base c = some d) (acc : Option Nat) (t : Text) :
    number base acc (c :: t) = number base (some (acc.getD 0 * base + d)) t := by
  rw [number, h]

/-- A byte as its two hexadecimal digits is read back. -/
theorem indexOperand_renderByte (b : Byte) : indexOperand (renderByte b) = some (b, []) := by
  have hb := b.isLt
  have hhi := digit_hexDigit ⟨b.toNat / 16, by omega⟩
  have hlo := digit_hexDigit ⟨b.toNat % 16, by omega⟩
  have hvalue : (0 * 16 + b.toNat / 16) * 16 + b.toNat % 16 = b.toNat := by omega
  have hnumber : number 16 none [hexDigit (b.toNat / 16), hexDigit (b.toNat % 16)] = some (b.toNat, []) := by
    rw [number_cons_of_digit hhi, number_cons_of_digit hlo, number, Option.getD_none, Option.getD_some, hvalue,
      Option.map_some]
  simp [renderByte, indexOperand, hnumber, hb]

/-- A byte operand in hexadecimal is read as an index is. -/
theorem byteOperand_renderByte (b : Byte) : byteOperand (renderByte b) = some (b, []) :=
  indexOperand_renderByte b

/-- An operand that is read back gives its command. -/
theorem oneOperand_renderByte {operand : Text → Option (Byte × Text)} {b : Byte}
    (h : operand (renderByte b) = some (b, [])) (f : Byte → Instr) :
    oneOperand operand (' ' :: renderByte b) f = some [f b] := by
  have hskip : skipBlanks (' ' :: renderByte b) = renderByte b := rfl
  rw [oneOperand, hskip, h]
  rfl

/-! What each mnemonic with an operand leads to, whatever follows the blank. -/

theorem assembleLine_upd (t : Text) :
    assembleLine (['U', 'P', 'D', ' '] ++ t) = oneOperand byteOperand (' ' :: t) .upd := rfl

theorem assembleLine_rdtab (t : Text) :
    assembleLine (['R', 'D', 'T', 'A', 'B', ' '] ++ t) = oneOperand indexOperand (' ' :: t) .rdtab := rfl

theorem assembleLine_rdtlo (t : Text) :
    assembleLine (['R', 'D', 'T', 'L', 'O', ' '] ++ t) = oneOperand indexOperand (' ' :: t) .rdtlo := rfl

theorem assembleLine_rdthi (t : Text) :
    assembleLine (['R', 'D', 'T', 'H', 'I', ' '] ++ t) = oneOperand indexOperand (' ' :: t) .rdthi := rfl

/-- Settles O7: the mnemonic leads to the command, and its operand is read back. -/
theorem assembleRendered : Obligations.AssembleRendered := by
  intro i
  cases i with
  | build | init | rdcrc => decide
  | upd b => rw [render, assembleLine_upd, oneOperand_renderByte (byteOperand_renderByte b)]
  | rdtab j => rw [render, assembleLine_rdtab, oneOperand_renderByte (indexOperand_renderByte j)]
  | rdtlo j => rw [render, assembleLine_rdtlo, oneOperand_renderByte (indexOperand_renderByte j)]
  | rdthi j => rw [render, assembleLine_rdthi, oneOperand_renderByte (indexOperand_renderByte j)]

end Sys2Proof.Machine
end

section
/-! PROOFS. Reserved words in a run, and the responses of commands and of the table dumps (30_encoding rules R56, R58,
R62). -/

namespace Sys2Proof.Machine

/-- In a state of the block with a reserved word among the `rest` of its list, the run of `rest` is refused: the words before
the first reserved one are commands, which complete. -/
theorem run_of_reserved {s : State} {before rest : List Word} (hinv : TableInvariant s)
    (hcommands : s.commands = before ++ rest) (hpc : s.pc = before.length)
    (hres : ∃ w ∈ rest, wellFormedWord w = false) :
    ∃ kind, Sys2Proof.core.run rest.length s = .refused (.reservedWord kind) := by
  induction rest generalizing before s with
  | nil => simp at hres
  | cons w rest ih =>
    have hfetch := fetchCommand_of_commands_eq hcommands hpc
    cases hd : decode w with
    | reserved kind => exact ⟨kind, run_succ_refused _ (step_of_reserved hfetch hd)⟩
    | command i =>
      have hstep : step s = .next (execResult s i) := (step_of_command hfetch hd).trans (exec_eq hinv i)
      have hw : wellFormedWord w = true := (wellFormedWord_iff_command w).mpr ⟨i, hd⟩
      obtain ⟨kind, hrun⟩ := ih (before := before ++ [w]) (tableInvariant_execResult hinv i)
        (by simp [hcommands]) (by simp [hpc]) (by simpa [hw] using hres)
      exact ⟨kind, (run_succ_next _ hstep).trans hrun⟩

theorem zext16_toNat_le (b : Byte) : (zext16 b).toNat ≤ 0x00FF := by
  have hb := b.isLt
  rw [zext16, BitVec.toNat_setWidth]
  omega

/-- A command with a response appends exactly one, and a byte read one with a zero high byte (30_encoding rule R56). -/
theorem Completes.responses_of_responds {s t : State} {i : Instr} (h : Completes s i t) (hi : responds i = true) :
    ∃ v : Word, t.responses = s.responses ++ [v] ∧ ((∃ j, i = .rdtlo j ∨ i = .rdthi j) → v.toNat ≤ 0x00FF) := by
  cases h with
  | build | init | upd => cases hi
  | rdcrc => exact ⟨s.crc, rfl, nofun⟩
  | rdtab => exact ⟨_, congrArg (· ++ [_]) (ensureBuilt_responses s), nofun⟩
  | rdtlo | rdthi => exact ⟨_, congrArg (· ++ [_]) (ensureBuilt_responses s), fun _ => zext16_toNat_le _⟩

/-- A command appends one response or none. -/
theorem Completes.exists_responses {s t : State} {i : Instr} (h : Completes s i t) :
    ∃ new : List Word, t.responses = s.responses ++ new ∧ new.length = (responds i).toNat := by
  cases hi : responds i with
  | false => exact ⟨[], by simp [h.responses hi], rfl⟩
  | true =>
    obtain ⟨v, hv, -⟩ := h.responses_of_responds hi
    exact ⟨[v], hv, rfl⟩

/-- The low byte of a word, zero-extended, is the source's mask (42_table_readout rule R101). -/
theorem zext16_lowByte (v : Word) : zext16 (lowByte v) = v &&& 0x00FF := by
  have hmask : (v &&& 0x00FF).toNat = v.toNat % 2 ^ 8 := Nat.and_two_pow_sub_one_eq_mod v.toNat 8
  refine BitVec.eq_of_toNat_eq ?_
  rw [hmask, zext16, lowByte, BitVec.toNat_setWidth, BitVec.toNat_setWidth]
  omega

/-- The high byte of a word, zero-extended, is the source's shift (42_table_readout rule R102). -/
theorem zext16_highByte (v : Word) : zext16 (highByte v) = v >>> 8 := by
  have hv := v.isLt
  refine BitVec.eq_of_toNat_eq ?_
  rw [zext16, highByte, BitVec.toNat_setWidth, BitVec.toNat_setWidth, BitVec.toNat_ushiftRight,
    Nat.shiftRight_eq_div_pow]
  omega

/-- A list of commands that each respond one value, the same in every state, responds those values in order. -/
theorem responses_foldl_map {f : Nat → Instr} {g : Nat → Word}
    (h : ∀ k s, (execResult s (f k)).responses = s.responses ++ [g k]) (ks : List Nat) (s : State) :
    ((ks.map f).foldl execResult s).responses = s.responses ++ ks.map g := by
  induction ks generalizing s with
  | nil => simp
  | cons k ks ih => rw [List.map_cons, List.foldl_cons, ih, h, List.map_cons, List.append_assoc, List.singleton_append]

theorem execResult_crc (s : State) {i : Instr} (hi : writesCrc i = false) : (execResult s i).crc = s.crc := by
  cases i with
  | init | upd => cases hi
  | build | rdcrc | rdtab | rdtlo | rdthi => simp [execResult]

/-- A list of commands that do not write `CRC` leaves it as it is. -/
theorem crc_foldl_of_not_writesCrc {cs : List Instr} (hcs : ∀ i ∈ cs, writesCrc i = false) (s : State) :
    (cs.foldl execResult s).crc = s.crc := by
  induction cs generalizing s with
  | nil => rfl
  | cons i cs ih =>
    obtain ⟨hi, hrest⟩ := List.forall_mem_cons.mp hcs
    rw [List.foldl_cons, ih hrest, execResult_crc s hi]

/-- A read-out of every index, each response a part `g` of the entry, responds that part of the table in index order
(20_memory rule R36). -/
theorem responses_foldl_readOuts {f : Byte → Instr} {g : Word → Word}
    (h : ∀ i s, (execResult s (f i)).responses = s.responses ++ [g (tableEntry i)]) (s : State) :
    (((List.range 256).map fun k => f (BitVec.ofNat 8 k)).foldl execResult s).responses =
      s.responses ++ buildTable.map g := by
  rw [responses_foldl_map (fun k => h (BitVec.ofNat 8 k)), buildTable, List.map_map]
  rfl

theorem responses_getTable (s : State) : (getTable.foldl execResult s).responses = s.responses ++ buildTable := by
  rw [getTable, List.foldl_cons, responses_foldl_readOuts (g := id) (fun i t => by simp [execResult]), List.map_id]
  rfl

theorem responses_dumpLo (s : State) : (dumpLo.foldl execResult s).responses =
    s.responses ++ buildTable.map fun v : Word => v &&& 0x00FF :=
  responses_foldl_readOuts (fun i t => by simp [execResult, zext16_lowByte]) s

theorem responses_dumpHi (s : State) : (dumpHi.foldl execResult s).responses =
    s.responses ++ buildTable.map fun v : Word => v >>> 8 :=
  responses_foldl_readOuts (fun i t => by simp [execResult, zext16_highByte]) s

theorem writesCrc_getTable : ∀ i ∈ getTable, writesCrc i = false :=
  List.forall_mem_cons.mpr ⟨rfl, List.forall_mem_map.mpr fun _ _ => rfl⟩

theorem writesCrc_dumps : ∀ i ∈ dumpLo ++ dumpHi, writesCrc i = false :=
  List.forall_mem_append.mpr ⟨List.forall_mem_map.mpr fun _ _ => rfl, List.forall_mem_map.mpr fun _ _ => rfl⟩

end Sys2Proof.Machine

/-! PROOFS. The settled obligations of 30_encoding about runs and responses. -/

namespace Sys2Proof.Machine

/-- Settles O9: the step on a word that decodes to reserved. -/
theorem stepRefusesReservedWord : Obligations.StepRefusesReservedWord :=
  fun _ _ _ hw hd => step_of_reserved hw hd

/-- Settles O15: the whole list is what the run has left at its start. -/
theorem runWithReservedWordRefused : Obligations.RunWithReservedWordRefused :=
  fun b words hres => run_of_reserved (before := []) (tableInvariant_start b words) rfl rfl hres

/-- Settles O25, by the commands. -/
theorem responsesOfEveryCommand : Obligations.ResponsesOfEveryCommand := fun i s t h =>
  have hc : Completes s i t := exec_next_iff.mp h
  ⟨hc.responses_of_responds, hc.responses⟩

/-- Settles O26, by induction on the commands. -/
theorem responsesCountReadCommands : Obligations.ResponsesCountReadCommands := by
  intro cs s t h
  induction cs generalizing s with
  | nil => cases h; exact ⟨⟨[], by simp, rfl⟩, rfl⟩
  | cons i cs ih =>
    obtain ⟨u, hu, hrest⟩ := execList_cons_next h
    have hc : Completes s i u := exec_next_iff.mp hu
    obtain ⟨first, hfirst, hone⟩ := hc.exists_responses
    obtain ⟨⟨later, hlater, hcount⟩, hpc⟩ := ih u hrest
    refine ⟨⟨first ++ later, by rw [hlater, hfirst, List.append_assoc], ?_⟩, ?_⟩
    · rw [List.length_append, hone, hcount, List.countP_cons]
      cases responds i <;> simp [Nat.add_comm]
    · rw [hpc, hc.pc, List.length_cons]
      omega

/-- Settles O52, from what each list responds. -/
theorem tableDumpsInOrder : Obligations.TableDumpsInOrder := by
  intro s hs
  refine ⟨⟨_, execList_eq hs _, responses_getTable s, crc_foldl_of_not_writesCrc writesCrc_getTable s⟩,
    ⟨_, execList_eq hs _, crc_foldl_of_not_writesCrc writesCrc_dumps s, ?_⟩⟩
  rw [List.foldl_append, responses_dumpHi, responses_dumpLo]

end Sys2Proof.Machine
end

section
/-! PROOFS. The pure functions of the table builder (40_table_builder rules R70, R71, R75): `BitStep` as a shift with the
polynomial fed back, its linearity, and what the bits shifted out, or the bit fed back, say about several steps. -/

namespace Sys2Proof.Machine

/-- What a step XORs in for the bit it shifts out; tied to `bitStep` by `bitStep_eq`. -/
def feedback (bit : Bool) : Word := if bit then poly else 0

theorem bitStep_eq (k : Word) : bitStep k = (k >>> 1) ^^^ feedback (k.getLsbD 0) := by
  change (if k.getLsbD 0 = true then (k >>> 1) ^^^ poly else k >>> 1) = _
  cases k.getLsbD 0
  · exact BitVec.xor_zero.symm
  · rfl

theorem feedback_xor : ∀ a b : Bool, feedback (a ^^ b) = feedback a ^^^ feedback b := by decide

theorem getLsbD_feedback_15 : ∀ bit : Bool, (feedback bit).getLsbD 15 = bit := by decide

theorem bitStep_of_even {k : Word} (h : k.getLsbD 0 = false) : bitStep k = k >>> 1 := by
  rw [bitStep_eq, h]
  exact BitVec.xor_zero

/-- The bit shifted out comes back as bit 15 (rule R70): the shift leaves that bit 0, and the polynomial has it. -/
theorem getLsbD_bitStep_15 (k : Word) : (bitStep k).getLsbD 15 = k.getLsbD 0 := by
  have hshift : (k >>> 1).getLsbD 15 = false := by simp
  rw [bitStep_eq, BitVec.getLsbD_xor, hshift, getLsbD_feedback_15, Bool.false_xor]

/-- The shift and the feedback are linear, so `BitStep` is (rule R75 a). -/
theorem bitStep_xor (x y : Word) : bitStep (x ^^^ y) = bitStep x ^^^ bitStep y := by
  rw [bitStep_eq, bitStep_eq, bitStep_eq, BitVec.ushiftRight_xor_distrib, BitVec.getLsbD_xor, feedback_xor]
  ac_rfl

theorem bit8_xor (x y : Word) : bit8 (x ^^^ y) = bit8 x ^^^ bit8 y := by
  simp only [bit8, bitStep_xor]

theorem tableEntry_xor (a b : Byte) : tableEntry (a ^^^ b) = tableEntry a ^^^ tableEntry b :=
  (congrArg bit8 BitVec.setWidth_xor).trans (bit8_xor _ _)

theorem bit8_eq_iterate (k : Word) : bit8 k = bitStep^[8] k := rfl

/-- As long as the bits shifted out are 0, the steps are shifts. -/
theorem iterate_bitStep_of_low_zero (n : Nat) {k : Word} (h : ∀ j < n, k.getLsbD j = false) :
    bitStep^[n] k = k >>> n := by
  induction n with
  | zero => exact (BitVec.ushiftRight_zero k).symm
  | succ n ih =>
    have heven : (k >>> n).getLsbD 0 = false := by simpa using h n (Nat.lt_succ_self n)
    rw [Function.iterate_succ_apply', ih fun j hj => h j (by omega), bitStep_of_even heven, ← BitVec.shiftRight_add]

/-- A step whose result has bit 15 clear fed nothing back, so it halved an even word. -/
theorem toNat_of_bitStep_lt {k : Word} (h : (bitStep k).toNat < 2 ^ 15) : k.toNat = 2 * (bitStep k).toNat := by
  have heven : k.getLsbD 0 = false := by
    rw [← getLsbD_bitStep_15, ← BitVec.testBit_toNat, Nat.testBit_lt_two_pow h]
  have hmod : k.toNat % 2 ≠ 1 := by
    rwa [← BitVec.testBit_toNat, Nat.testBit_zero, decide_eq_false_iff_not] at heven
  rw [bitStep_of_even heven, BitVec.toNat_ushiftRight, Nat.shiftRight_eq_div_pow]
  omega

/-- Steps whose result is small enough halved the word each time. -/
theorem toNat_of_iterate_bitStep_lt (n : Nat) {k : Word} (h : 2 ^ n * (bitStep^[n] k).toNat < 2 ^ 16) :
    k.toNat = 2 ^ n * (bitStep^[n] k).toNat := by
  induction n generalizing k with
  | zero => simp
  | succ n ih =>
    rw [Function.iterate_succ_apply, Nat.pow_succ, Nat.mul_comm (2 ^ n), Nat.mul_assoc] at h ⊢
    have hrest := ih (k := bitStep k) (by omega)
    rw [toNat_of_bitStep_lt (by omega), hrest]

/-- A word is its high byte in place and its low byte (20_memory rule R35). -/
theorem and_xor_zext16_lowByte (x : Word) : (x &&& 0xFF00) ^^^ zext16 (lowByte x) = x := by
  have hmasks : ∀ n < 16, ((0xFF00 : Word).getLsbD n ^^ (0x00FF : Word).getLsbD n) = true := by decide
  refine BitVec.eq_of_getLsbD_eq fun n hn => ?_
  rw [zext16_lowByte, BitVec.getLsbD_xor, BitVec.getLsbD_and, BitVec.getLsbD_and, ← Bool.and_xor_distrib_left,
    hmasks n hn, Bool.and_true]

/-- Eight steps only shift the high byte down. -/
theorem bit8_and_highMask (x : Word) : bit8 (x &&& 0xFF00) = x >>> 8 := by
  have hmask : ∀ j < 8, (0xFF00 : Word).getLsbD j = false := by decide
  have hlow (j : Nat) (hj : j < 8) : (x &&& 0xFF00).getLsbD j = false := by
    rw [BitVec.getLsbD_and, hmask j hj, Bool.and_false]
  calc bit8 (x &&& 0xFF00) = (x &&& 0xFF00) >>> 8 := iterate_bitStep_of_low_zero 8 hlow
    _ = x >>> 8 &&& 0x00FF := BitVec.ushiftRight_and_distrib x 0xFF00 8
    _ = zext16 (highByte x) := (zext16_lowByte (x >>> 8)).symm
    _ = x >>> 8 := zext16_highByte x

/-- The byte split of rule R75 (d), by linearity. -/
theorem bit8_eq_shift_xor_tableEntry (x : Word) : bit8 x = (x >>> 8) ^^^ tableEntry (lowByte x) := by
  calc bit8 x = bit8 ((x &&& 0xFF00) ^^^ zext16 (lowByte x)) := by rw [and_xor_zext16_lowByte]
    _ = (x >>> 8) ^^^ tableEntry (lowByte x) := by rw [bit8_xor, bit8_and_highMask]; rfl

theorem buildTable_getElem? (i : Byte) : buildTable[i.toNat]? = some (tableEntry i) := by
  have hi := i.isLt
  simp [buildTable, List.getElem?_range hi]

/-! Which entries have equal bytes (rule R75 c): by linearity, those whose indices differ by an entry with a zero byte. -/

theorem highByte_xor (v w : Word) : highByte (v ^^^ w) = highByte v ^^^ highByte w := by
  rw [highByte, BitVec.ushiftRight_xor_distrib, BitVec.setWidth_xor]
  rfl

theorem lowByte_xor (v w : Word) : lowByte (v ^^^ w) = lowByte v ^^^ lowByte w := BitVec.setWidth_xor

/-- Only entry 0 has a zero high byte: eight halvings lead from its index to it. -/
theorem eq_zero_of_highByte_tableEntry {i : Byte} (h : highByte (tableEntry i) = 0) : i = 0 := by
  have hi := i.isLt
  have hhigh : (tableEntry i).toNat / 256 = 0 := (opcField_toNat _).symm.trans (congrArg BitVec.toNat h)
  have hindex : (zext16 i).toNat = 2 ^ 8 * (tableEntry i).toNat :=
    toNat_of_iterate_bitStep_lt 8 (k := zext16 i) (show 2 ^ 8 * (tableEntry i).toNat < 2 ^ 16 by omega)
  rw [zext16, BitVec.toNat_setWidth] at hindex
  refine BitVec.eq_of_toNat_eq (show i.toNat = 0 from ?_)
  omega

theorem highByte_tableEntry_injective : Function.Injective fun i => highByte (tableEntry i) := by
  intro i j h
  refine BitVec.xor_eq_zero_iff.mp (eq_zero_of_highByte_tableEntry ?_)
  rw [tableEntry_xor, highByte_xor]
  exact BitVec.xor_eq_zero_iff.mpr h

/-- Two entries have a zero low byte, by the 256 entries. -/
theorem lowByte_tableEntry_eq_zero_iff : ∀ i : Byte, lowByte (tableEntry i) = 0 ↔ i = 0 ∨ i = 0x91 := by
  decide +kernel

theorem xor_eq_iff (i j d : Byte) : j ^^^ i = d ↔ j = i ^^^ d := by
  rw [← BitVec.xor_left_inj i, BitVec.xor_assoc, BitVec.xor_self, BitVec.xor_zero, BitVec.xor_comm d]

/-- Every low byte stands in the entries of two indices, which differ by `0x91`. -/
theorem lowByte_tableEntry_eq_iff (i j : Byte) :
    lowByte (tableEntry j) = lowByte (tableEntry i) ↔ j = i ∨ j = i ^^^ 0x91 := by
  have hxor : lowByte (tableEntry (j ^^^ i)) = 0 ↔ lowByte (tableEntry j) = lowByte (tableEntry i) := by
    rw [tableEntry_xor, lowByte_xor]
    exact BitVec.xor_eq_zero_iff
  rw [← hxor, lowByte_tableEntry_eq_zero_iff]
  exact or_congr BitVec.xor_eq_zero_iff (xor_eq_iff i j 0x91)

theorem card_lowByte_fiber (i : Byte) :
    (Finset.univ.filter fun j : Byte => lowByte (tableEntry j) = lowByte (tableEntry i)).card = 2 := by
  have hfiber : (Finset.univ.filter fun j : Byte => lowByte (tableEntry j) = lowByte (tableEntry i)) =
      {i, i ^^^ 0x91} := by
    ext j
    simp [lowByte_tableEntry_eq_iff]
  have hne : i ≠ i ^^^ 0x91 := by
    rw [ne_eq, ← xor_eq_iff, BitVec.xor_self]
    decide
  rw [hfiber, Finset.card_pair hne]

theorem card_lowBytes : (Finset.univ.image fun i : Byte => lowByte (tableEntry i)).card = 128 := by
  have hsum := Finset.card_eq_sum_card_image (fun i : Byte => lowByte (tableEntry i)) Finset.univ
  rw [Finset.sum_const_nat (m := 2), Finset.card_univ, ← FinEnum.card_eq_fintypeCard, FinEnum.card_bitVec] at hsum
  · omega
  · intro v hv
    obtain ⟨i, -, rfl⟩ := Finset.mem_image.mp hv
    exact card_lowByte_fiber i

end Sys2Proof.Machine

/-! PROOFS. The build: what it leaves of the state, when it changes nothing, and the rule's loop of entry writes. -/

namespace Sys2Proof.Machine

/-- Where the table is built already, a build changes nothing (10_state rule R19). -/
theorem fillTable_eq_self {s : State} (hs : StateInv s) (hb : s.built = true) : fillTable s = s := by
  have htable : s.table = builtMemory := eq_builtMemory hs.wf (hs.table hb)
  rw [fillTable, setBuilt, ← htable, ← hb]

@[simp] theorem ensureBuilt_of_built {s : State} (hb : s.built = true) : ensureBuilt s = s := if_pos hb

/-- The reads of a command see no difference where `EnsureBuilt()` has run before it (rule R73). -/
theorem withEntry_ensureBuilt (i : Byte) (s : State) (k : Word → State → Host.Outcome State Fault Refusal) :
    withEntry i (ensureBuilt s) k = withEntry i s k := by
  rw [withEntry, withEntry, ensureBuilt_of_built (ensureBuilt_built s)]

/-- The body of the build loop (rule R72); tied to the model by `buildLoop_eq`. -/
def writeEntry (s : State) (i : Byte) : State := writeTable i (tableEntry i) s

theorem buildLoop_eq (s : State) :
    buildLoop s = setBuilt (((List.range 256).map (BitVec.ofNat 8)).foldl writeEntry s) := by
  rw [List.foldl_map]
  rfl

/-- Entry writes change the table only. -/
theorem foldl_writeEntry (is : List Byte) (s : State) :
    is.foldl writeEntry s = { s with table := (is.foldl writeEntry s).table } := by
  induction is generalizing s with
  | nil => rfl
  | cons i is ih => exact ih (writeEntry s i)

theorem foldl_writeEntry_wf (is : List Byte) {s : State} (h : s.table.wf = true) :
    (is.foldl writeEntry s).table.wf = true := by
  induction is generalizing s with
  | nil => exact h
  | cons i is ih => exact ih (writeTable_wf i (tableEntry i) h)

/-- Entry writes leave `TableEntry(i)` at every index they were done for. -/
theorem readTable_foldl_writeEntry (is : List Byte) (s : State) (j : Byte) :
    readTable j (is.foldl writeEntry s) = if j ∈ is then some (tableEntry j) else readTable j s := by
  induction is generalizing s with
  | nil => rfl
  | cons i is ih =>
    rw [List.foldl_cons, ih, writeEntry, readTable_writeTable]
    by_cases hij : i = j
    · simp [hij]
    · simp [hij, Ne.symm hij]

/-- On a canonical table, entry writes at every index leave the built memory, whatever their order. -/
theorem foldl_writeEntry_eq {is : List Byte} (his : ∀ j, j ∈ is) {s : State} (h : s.table.wf = true) :
    is.foldl writeEntry s = { s with table := builtMemory } := by
  have htable : (is.foldl writeEntry s).table = builtMemory :=
    eq_builtMemory (foldl_writeEntry_wf is h) fun i => (readTable_foldl_writeEntry is s i).trans (if_pos (his i))
  rw [foldl_writeEntry, htable]

/-- The loop of rule R72 leaves what the build as one action leaves: it runs over every index. -/
theorem buildLoop_eq_fillTable {s : State} (h : s.table.wf = true) : buildLoop s = fillTable s := by
  have hindices (j : Byte) : j ∈ (List.range 256).map (BitVec.ofNat 8) :=
    List.mem_map.mpr ⟨j.toNat, List.mem_range.mpr j.isLt, by simp⟩
  rw [buildLoop_eq, foldl_writeEntry_eq hindices h, fillTable]

end Sys2Proof.Machine

/-! PROOFS. The settled obligations of 40_table_builder. -/

namespace Sys2Proof.Machine

/-- Settles O28: the build as one action, which a built table already holds. -/
theorem buildResult : Obligations.BuildResult := by
  refine ⟨fun s => ⟨_, rfl, readTable_fillTable s, rfl, rfl, rfl, rfl, rfl⟩, fun s hs hb => ?_⟩
  rw [exec, execBuild, fillTable_eq_self hs hb, advance]

/-- Settles O29: a canonical table with every entry written is the built one. -/
theorem buildIsTheEntryLoop : Obligations.BuildIsTheEntryLoop := by
  intro s h
  rw [buildLoop_eq_fillTable h]
  rfl

/-- Settles O30, one clause at a time. -/
theorem ensureBuiltEffect : Obligations.EnsureBuiltEffect := by
  refine ⟨fun _ => ensureBuilt_of_built, fun s hs => ⟨ensureBuilt_built s, readTable_ensureBuilt hs⟩,
    fun s => ⟨ensureBuilt_crc s, ensureBuilt_pc s, ensureBuilt_commands s, ensureBuilt_responses s⟩,
    ?readers, ?others⟩
  case readers =>
    intro i s hi
    cases i with
    | build | init | rdcrc => cases hi
    | upd b => rw [exec, exec, execUpd, execUpd, ensureBuilt_crc, withEntry_ensureBuilt]
    | rdtab j => rw [exec, exec, execRdtab, execRdtab, withEntry_ensureBuilt]
    | rdtlo j => rw [exec, exec, execRdtlo, execRdtlo, withEntry_ensureBuilt]
    | rdthi j => rw [exec, exec, execRdthi, execRdthi, withEntry_ensureBuilt]
  case others =>
    rintro i s t (rfl | rfl) h <;> cases exec_next_iff.mp h <;> exact ⟨rfl, rfl⟩

/-- Settles O31: where `BUILT` is 1 the build changes nothing, and where it is 0 `EnsureBuilt()` is the build. -/
theorem rebuildingEveryTimeIsSame : Obligations.RebuildingEveryTimeIsSame := by
  intro s hs
  rcases ensureBuilt_cases s with ⟨hb, e⟩ | ⟨_, e⟩
  · rw [e, fillTable_eq_self hs hb]
  · exact e

/-- Settles O41: the step is linear, and the byte split follows. -/
theorem tableFunctionsLinear : Obligations.TableFunctionsLinear :=
  ⟨bitStep_xor, bit8_xor, tableEntry_xor, bit8_eq_shift_xor_tableEntry⟩

/-- Settles O42: an injection of the bytes into the bytes is a bijection, and every low byte has two indices. -/
theorem tableEntriesDistinct : Obligations.TableEntriesDistinct :=
  ⟨Function.Injective.of_comp (f := highByte) highByte_tableEntry_injective,
   (Finite.injective_iff_bijective.mp highByte_tableEntry_injective).existsUnique, card_lowBytes⟩

/-- Settles O39: the step by its definition, bit 15 by the feedback, and the corner cases by evaluation. -/
theorem bitStepRule : Obligations.BitStepRule :=
  ⟨fun _ => rfl, bit8_eq_iterate, getLsbD_bitStep_15, by decide⟩

/-- Settles O40: the entry by its definition, the table by its positions, and the corner cases by evaluation. -/
theorem tableEntryRule : Obligations.TableEntryRule :=
  ⟨fun _ => rfl, by simp [buildTable], buildTable_getElem?, by decide⟩

end Sys2Proof.Machine
end

section
/-! PROOFS. The pure functions of the checksum unit (41_checksum rules R80, R81, R88, R90, R91): the update step through the
linearity of `TableEntry`, its two bytes, and its fold over a byte sequence. -/

namespace Sys2Proof.Machine

/-- The table-driven step is the bit-serial division (rule R88): the byte split of `Bit8`, and linearity. -/
theorem crcStep_eq_bit8 (c : Word) (b : Byte) : crcStep c b = bit8 (c ^^^ zext16 b) := by
  calc crcStep c b = (c >>> 8) ^^^ (tableEntry (lowByte c) ^^^ tableEntry b) := by rw [← tableEntry_xor]; rfl
    _ = bit8 c ^^^ bit8 (zext16 b) := by rw [← BitVec.xor_assoc, ← bit8_eq_shift_xor_tableEntry]; rfl
    _ = bit8 (c ^^^ zext16 b) := (bit8_xor c (zext16 b)).symm

/-- The byte may be XORed into the register first (rule R88). -/
theorem crcStep_xor_zext16 (c : Word) (b : Byte) : crcStep (c ^^^ zext16 b) 0x00 = crcStep c b := by
  rw [crcStep_eq_bit8, crcStep_eq_bit8]
  exact congrArg bit8 BitVec.xor_zero

/-- The high byte of the result is the entry's: the register is shifted out of it. -/
theorem highByte_crcStep (c : Word) (b : Byte) : highByte (crcStep c b) = highByte (tableEntry (updIndex c b)) := by
  have hshift : highByte (c >>> 8) = 0 := BitVec.eq_of_getLsbD_eq fun n _ => by simp [highByte]
  rw [crcStep, foldEntry, highByte_xor, hshift]
  exact BitVec.zero_xor

/-- The low byte of the result is the register's high byte with the entry's low byte. -/
theorem lowByte_crcStep (c : Word) (b : Byte) :
    lowByte (crcStep c b) = highByte c ^^^ lowByte (tableEntry (updIndex c b)) :=
  lowByte_xor (c >>> 8) (tableEntry (updIndex c b))

theorem ext_bytes {c d : Word} (hlow : lowByte c = lowByte d) (hhigh : highByte c = highByte d) : c = d :=
  ((eq_append_iff c (opcField d) (argField d)).mpr ⟨hhigh, hlow⟩).trans (opcField_append_argField d)

/-- The inverse of the step (rule R90): the high byte of the result gives the index away, and the index the two bytes. -/
theorem bytes_of_highByte_tableEntry_eq {c : Word} {b i : Byte} (h : highByte (tableEntry i) = highByte (crcStep c b)) :
    lowByte c = i ^^^ b ∧ highByte c = lowByte (crcStep c b) ^^^ lowByte (tableEntry i) := by
  have hindex : i = updIndex c b := highByte_tableEntry_injective (h.trans (highByte_crcStep c b))
  constructor
  · rw [hindex, updIndex, BitVec.xor_assoc, BitVec.xor_self, BitVec.xor_zero]
  · rw [lowByte_crcStep, ← hindex, BitVec.xor_assoc, BitVec.xor_self, BitVec.xor_zero]

/-- For a fixed byte the result determines the register: its inverse gives both bytes. -/
theorem crcStep_left_injective (b : Byte) : Function.Injective fun c : Word => crcStep c b := by
  intro c d (h : crcStep c b = crcStep d b)
  have hd := highByte_crcStep d b
  obtain ⟨hclow, hchigh⟩ := bytes_of_highByte_tableEntry_eq (hd.symm.trans (congrArg highByte h.symm))
  obtain ⟨hdlow, hdhigh⟩ := bytes_of_highByte_tableEntry_eq hd.symm
  exact ext_bytes (hclow.trans hdlow.symm) (by rw [hchigh, hdhigh, h])

/-- For a fixed register the result determines the byte: entries of different indices differ in the high byte. -/
theorem crcStep_right_injective (c : Word) : Function.Injective (crcStep c) := by
  intro x y h
  have hentry : highByte (tableEntry (updIndex c x)) = highByte (tableEntry (updIndex c y)) := by
    rw [← highByte_crcStep, ← highByte_crcStep, h]
  have hindex : updIndex c x = updIndex c y := highByte_tableEntry_injective hentry
  exact (BitVec.xor_right_inj (lowByte c)).mp hindex

/-- Taking in the register's own low byte only shifts it: the entry used is entry 0, which is 0 (rule R91). -/
theorem crcStep_lowByte (c : Word) : crcStep c (lowByte c) = c >>> 8 := by
  rw [crcStep, foldEntry, updIndex, BitVec.xor_self]
  exact BitVec.xor_zero

/-- Taking in the register's own two bytes, low byte first, shifts all of it out (rule R91). -/
theorem crcStep_lowByte_highByte (c : Word) : crcStep (crcStep c (lowByte c)) (highByte c) = 0x0000 := by
  rw [crcStep_lowByte]
  calc crcStep (c >>> 8) (highByte c) = c >>> 8 >>> 8 := crcStep_lowByte (c >>> 8)
    _ = c >>> 16 := (BitVec.shiftRight_add c 8 8).symm
    _ = 0x0000 := BitVec.ushiftRight_eq_zero (Nat.le_refl 16)

theorem crcFold_eq_foldl (c : Word) (bytes : List Byte) : crcFold c bytes = bytes.foldl crcStep c := by
  induction bytes generalizing c with
  | nil => rfl
  | cons b rest ih => exact ih (crcStep c b)

theorem crcFold_append (c : Word) (first second : List Byte) :
    crcFold c (first ++ second) = crcFold (crcFold c first) second := by
  simp only [crcFold_eq_foldl, List.foldl_append]

theorem checksum_append (first second : List Byte) : checksum (first ++ second) = crcFold (checksum first) second :=
  crcFold_append 0x0000 first second

/-- A difference in the register is never lost by what follows. -/
theorem crcFold_injective (bytes : List Byte) : Function.Injective fun c : Word => crcFold c bytes := by
  induction bytes with
  | nil => exact Function.injective_id
  | cons b rest ih => exact ih.comp (crcStep_left_injective b)

end Sys2Proof.Machine

/-! PROOFS. The state that a list of `UPD`s leaves, and with it `CKSUM` (41_checksum rules R84, R86). -/

namespace Sys2Proof.Machine

/-- What an update writes, as one record. -/
theorem advance_setCrc_ensureBuilt (v : Word) (s : State) :
    advance (setCrc v (ensureBuilt s)) = { ensureBuilt s with crc := v, pc := s.pc + 1 } := by
  rw [advance, setCrc_pc, ensureBuilt_pc, setCrc]

/-- The table that `EnsureBuilt()` leaves depends on `BUILT` and the table only. -/
theorem ensureBuilt_table_congr {s t : State} (hbuilt : s.built = t.built) (htable : s.table = t.table) :
    (ensureBuilt s).table = (ensureBuilt t).table := by
  rw [ensureBuilt, ensureBuilt, hbuilt]
  split
  · exact htable
  · rfl

/-- A list of `UPD`s folds its bytes into `CRC` and runs `EnsureBuilt()` at its first command, if it has one. -/
theorem foldl_execResult_upd (bytes : List Byte) (s : State) :
    (bytes.map Instr.upd).foldl execResult s =
      { (if bytes.isEmpty then s else ensureBuilt s) with
        crc := crcFold s.crc bytes, pc := s.pc + bytes.length } := by
  induction bytes generalizing s with
  | nil => rfl
  | cons b rest ih =>
    have hbuilt : (execResult s (.upd b)).built = true := ensureBuilt_built s
    rw [List.map_cons, List.foldl_cons, ih, ensureBuilt_of_built hbuilt, ite_self, execResult_pc, Nat.add_assoc,
      Nat.add_comm 1]
    rfl

end Sys2Proof.Machine

/-! PROOFS. The settled obligations of 41_checksum. -/

namespace Sys2Proof.Machine

/-- Settles O34: the read finds `v`, and the update goes on with it. -/
theorem updReadsTheTable : Obligations.UpdReadsTheTable := by
  intro s b v hv
  rw [← advance_setCrc_ensureBuilt]
  exact exec_next_iff.mpr (.upd hv)

/-- Settles O33: in a state of the block the entry read is `TableEntry`'s. -/
theorem updResult : Obligations.UpdResult :=
  fun s b hs => ⟨updReadsTheTable s b _ (readTable_ensureBuilt hs _), rfl⟩

/-- Settles O32, by the meaning of `INIT`. -/
theorem initResult : Obligations.InitResult := fun _ => rfl

/-- Settles O35, by the meaning of `RDCRC`. -/
theorem rdcrcResult : Obligations.RdcrcResult := fun _ => rfl

/-- Settles O43: the bit-serial form, in which the byte is XORed in first. -/
theorem tableDrivenEqualsBitSerial : Obligations.TableDrivenEqualsBitSerial :=
  fun c b => ⟨crcStep_eq_bit8 c b, (crcStep_xor_zext16 c b).symm⟩

/-- Settles O44: the fold as a library fold, which splits at every point; the values by evaluation. -/
theorem checksumIsTheFold : Obligations.ChecksumIsTheFold :=
  ⟨crcFold_eq_foldl 0x0000, rfl, by decide, by decide, by decide,
   fun c first second => (crcFold_append c first second).symm⟩

/-- Settles O45: an injective step on the finitely many register values is a bijection, and a difference that one byte makes
in the register is kept by the rest. -/
theorem oneByteErrorsDetected : Obligations.OneByteErrorsDetected := by
  refine ⟨fun b => Finite.injective_iff_bijective.mp (crcStep_left_injective b),
    fun _ _ _ => bytes_of_highByte_tableEntry_eq, fun before after x y hxy h => hxy ?_⟩
  rw [checksum_append, checksum_append] at h
  exact crcStep_right_injective (checksum before) (crcFold_injective after h)

/-- Settles O46: the two appended bytes are the register's own. -/
theorem residueIsZero : Obligations.ResidueIsZero :=
  ⟨crcStep_lowByte_highByte,
   fun bytes => (checksum_append bytes _).trans (crcStep_lowByte_highByte (checksum bytes)), by decide⟩

/-- Settles O47: the list completes, and its `UPD`s run from the state that `INIT` leaves. -/
theorem cksumFromEveryState : Obligations.CksumFromEveryState := by
  intro s bytes hs
  refine ⟨_, execList_eq hs _, ?_⟩
  rw [cksum, List.foldl_cons, List.foldl_append, foldl_execResult_upd]
  cases bytes with
  | nil => exact ⟨rfl, rfl, (Bool.or_false _).symm, rfl⟩
  | cons b rest =>
    refine ⟨congrArg (· ++ [_]) (ensureBuilt_responses _), rfl, ?_, ensureBuilt_table_congr rfl rfl⟩
    exact (ensureBuilt_built _).trans (Bool.or_true _).symm

end Sys2Proof.Machine
end

section
/-! PROOFS. The table read-outs (42_table_readout rules R100 to R103): the state that each leaves, and the entry put together
again from its two bytes. -/

namespace Sys2Proof.Machine

/-- What a read-out writes, as one record. -/
theorem advance_respond_ensureBuilt (v : Word) (s : State) :
    advance (respond v (ensureBuilt s)) =
      { ensureBuilt s with responses := s.responses ++ [v], pc := s.pc + 1 } := by
  rw [advance, respond_pc, ensureBuilt_pc, respond, ensureBuilt_responses]

/-- Zero-extension loses nothing of a byte (20_memory rule R35). -/
theorem lowByte_zext16 (b : Byte) : lowByte (zext16 b) = b :=
  (BitVec.setWidth_setWidth_of_le b (by decide)).trans (BitVec.setWidth_eq b)

/-- A word is its two bytes joined (20_memory rule R35). -/
theorem joinBytes_highByte_lowByte (v : Word) : joinBytes (highByte v) (lowByte v) = v :=
  opcField_append_argField v

/-- Shifting the high byte down and up again clears the low byte. -/
theorem shiftRight_shiftLeft_eight (v : Word) : (v >>> 8) <<< 8 = v &&& 0xFF00 :=
  BitVec.shiftLeft_ushiftRight

/-- Settles O36: in a state of the block the entry read is `TableEntry`'s, and its zero-extended bytes are the source's mask
and shift of it. -/
theorem readOutResults : Obligations.ReadOutResults := by
  intro s i hs
  rw [← zext16_lowByte, ← zext16_highByte, ← advance_respond_ensureBuilt, ← advance_respond_ensureBuilt,
    ← advance_respond_ensureBuilt]
  exact ⟨exec_eq hs (.rdtab i), exec_eq hs (.rdtlo i), exec_eq hs (.rdthi i)⟩

/-- Settles O38: the byte responses are the entry's two bytes, zero-extended, and each byte of an update needs only
that byte of the entry. -/
theorem readOutsAgree : Obligations.ReadOutsAgree := by
  refine ⟨fun s i hs => ?_, fun c b => ⟨lowByte_crcStep c b, highByte_crcStep c b⟩⟩
  obtain ⟨htab, hlo, hhi⟩ := readOutResults s i hs
  refine ⟨_, _, _, _, _, _, htab, rfl, hlo, rfl, hhi, rfl, ?join, ?xor⟩
  case join =>
    rw [← zext16_lowByte, ← zext16_highByte, lowByte_zext16, lowByte_zext16, joinBytes_highByte_lowByte]
  case xor => rw [shiftRight_shiftLeft_eight, ← zext16_lowByte, and_xor_zext16_lowByte]

end Sys2Proof.Machine
end

section
/-! PROOFS. The settled obligation of 60_exceptions. -/

namespace Sys2Proof.Machine

/-- Settles O27: in a state of the block the next state is the one that `execResult` names for the command, as every table
read finds its entry. -/
theorem everyCommandCompletes : Obligations.EveryCommandCompletes :=
  fun i s hs => ⟨execResult s i, exec_eq hs i⟩

end Sys2Proof.Machine
end

section
/-! PROOFS. The table after reset, the responses of one command, and the settled obligations of 70_reset_and_hazards. -/

namespace Sys2Proof.Machine

/-- After reset every index reads its entry, or none has a value (70_reset_and_hazards rule R131). -/
theorem readTable_resetWith (b : Bool) (i : Byte) :
    readTable i (State.resetWith b) = if b then some (tableEntry i) else none := by
  cases b with
  | false => rfl
  | true => exact read_builtMemory i

/-- A command's responses are the earlier ones, with at most one after them (30_encoding rule R56). -/
theorem Completes.responses_cases {s t : State} {i : Instr} (h : Completes s i t) :
    t.responses = s.responses ∨ ∃ v, t.responses = s.responses ++ [v] := by
  cases hi : responds i with
  | false => exact .inl (h.responses hi)
  | true =>
    obtain ⟨v, hv, -⟩ := h.responses_of_responds hi
    exact .inr ⟨v, hv⟩

/-- Settles O12: a command word runs its command, which completes in a state of the block; a reserved word is refused. -/
theorem stepHasTwoOutcomes : Obligations.StepHasTwoOutcomes := by
  intro s w hs hw
  refine ⟨fun i hd => ?command, fun kind hd => step_of_reserved hw hd⟩
  have hexec : exec i s = .next (execResult s i) := exec_eq hs i
  exact ⟨execResult s i, (step_of_command hw hd).trans hexec, (exec_next_iff.mp hexec).responses_cases⟩

/-- Settles O8: the step on a word that decodes to a command. -/
theorem stepRunsDecodedCommand : Obligations.StepRunsDecodedCommand :=
  fun _ _ _ hw hd => step_of_command hw hd

/-- Settles O16, with the table read at each value of the parameter. -/
theorem resetState : Obligations.ResetState := by
  refine fun b => ⟨resetWith_crc b, resetWith_built b, ?built, ?unbuilt⟩
  case built => rintro rfl i; exact readTable_resetWith true i
  case unbuilt => rintro rfl i; exact readTable_resetWith false i

/-- Settles O17: a start is the reset state with the host's list, and reset has the empty one. -/
theorem startOfRun : Obligations.StartOfRun :=
  ⟨fun b _ => ⟨resetWith_pc b, resetWith_responses b, rfl, resetWith_crc b⟩, Config.buildAtReset, rfl⟩

end Sys2Proof.Machine
end

section
/-! PROOFS. The settled obligations about the model's own choices: the end of a run, a placed word, and an entry with no
value (entries 5, 4 and 2 of the assumption log). -/

namespace Sys2Proof.Machine

/-- A table word gives a command where its word decodes to that command. -/
theorem decodeTableWord_eq_some_iff (nbits w : Nat) (i : Instr) :
    decodeTableWord nbits w = some i ↔ decode (tableWord nbits w) = .command i := by
  rw [decodeTableWord]
  cases decode (tableWord nbits w) <;> simp

/-- Where `BUILT` is 1 and the index has no value, a table read faults before it uses the entry. -/
theorem withEntry_of_noValue {i : Byte} {s : State} (hb : s.built = true) (hv : readTable i s = none)
    (k : Word → State → Host.Outcome State Fault Refusal) : withEntry i s k = .fault (.noTableEntry i) := by
  rw [withEntry, ensureBuilt_of_built hb, hv]

/-- Every index is the update index of some byte, whatever the register holds (41_checksum rule R80). -/
theorem updIndex_lowByte_xor (crc : Word) (i : Byte) : updIndex crc (lowByte crc ^^^ i) = i := by
  rw [updIndex, ← BitVec.xor_assoc, BitVec.xor_self, BitVec.zero_xor]

/-- Settles O10: there is no word to fetch. -/
theorem stepRefusesAtEndOfRun : Obligations.StepRefusesAtEndOfRun := fun _ => step_of_runEnded

/-- Settles O11: the placed word is the one fetched, and placing it writes the command list only. -/
theorem placedWordRunsNext : Obligations.PlacedWordRunsNext := by
  intro s nbits w i hi
  have hfetch : fetchCommand (s.withFetchWord nbits w) = some (tableWord nbits w) := fetchCommand_placeCommand _ s
  have hdecode : decode (tableWord nbits w) = .command i := (decodeTableWord_eq_some_iff nbits w i).mp hi
  exact ⟨step_of_command hfetch hdecode, _, rfl⟩

/-- Settles O37: each of the four commands begins with the read that faults, `UPD` at the index its byte leads to. -/
theorem readOfNoValueFaults : Obligations.ReadOfNoValueFaults := by
  intro s i hb hv
  refine ⟨?rdtab, ?rdtlo, ?rdthi, ?upd⟩
  case rdtab => rw [exec, execRdtab, withEntry_of_noValue hb hv]
  case rdtlo => rw [exec, execRdtlo, withEntry_of_noValue hb hv]
  case rdthi => rw [exec, execRdthi, withEntry_of_noValue hb hv]
  case upd =>
    have hindex : updIndex s.crc (s.crc.setWidth 8 ^^^ i) = i := updIndex_lowByte_xor s.crc i
    rw [exec, execUpd, hindex, withEntry_of_noValue hb hv]

end Sys2Proof.Machine
end
